-- ==== Sys2Proof/Word.lean ====
section
/-! DEFINITION. The word types of the core: a byte, the 32-bit word of the register port, the 64-bit
registers and the 10-bit word index (00_scope.md R9, 20_memory.md R60). -/

namespace Sys2Proof

/-- A byte, an entry of a buffer (00_scope.md R12, 10_state.md R42). -/
abbrev Byte := BitVec 8

/-- A word of the register port and of the 32-bit registers (00_scope.md R9). -/
abbrev Word := BitVec 32

/-- A 64-bit register: COUNTER, TIME, CTR (10_state.md R29, R30, R34). -/
abbrev DWord := BitVec 64

/-- A word index of the register space, 0x000 to 0x3FF (20_memory.md R60). -/
abbrev Index := BitVec 10

end Sys2Proof
end

