-- ==== Sys2Proof/Config.lean ====
section
/-! DEFINITION. The implementation parameters of 00_scope.md R9, at the values the spec gives them.
No value of this hardware is left free after reset (93_implementation_defined.md), so there is no
opaque constant here. -/

namespace Sys2Proof.Config

/-- TEXT_MAX, characters in the Base32 text buffer (R9; log 8). -/
def textMax : Nat := 256

/-- KEY_MAX, bytes in the key buffer (R9; log 8). -/
def keyMax : Nat := 160

/-- CAND_MAX, characters in the candidate buffer (R9; log 8). -/
def candMax : Nat := 16

/-- The length of CODE_STR, the largest legal DIGITS (R9). -/
def codeStrMax : Nat := 9

/-- The digest length of SHA-1 in bytes (R9). -/
def digestMax : Nat := 20

/-- The SHA-1 block size B in bytes (R9, R130). -/
def blockSize : Nat := 64

end Sys2Proof.Config
end

