-- ==== Sys2Proof/Syntax.lean ====
section
/-! DEFINITION. The commands: one constructor per row of opcode_table.json, that is one per legal
command word (30_encoding.md R83). A command has no register-number field and no immediate field:
every operand is a fixed register (R80, R84). -/

namespace Sys2Proof

/-- The seven commands of 30_encoding.md R83; the suffix `T` is the table's `.T`, KSRC = 1 (R95). -/
inductive Instr where
  /-- B32DEC, 0x00000001 (40_base32.md R107). -/
  | b32dec
  /-- HOTP, 0x00000002 (42_hotp.md R157). -/
  | hotp
  /-- HOTP.T, 0x00000102 (42_hotp.md R157). -/
  | hotpT
  /-- TOTP, 0x00000003 (43_totp.md R173). -/
  | totp
  /-- TOTP.T, 0x00000103 (43_totp.md R173). -/
  | totpT
  /-- VERIFY, 0x00000004 (44_verify.md R184). -/
  | verify
  /-- VERIFY.T, 0x00000104 (44_verify.md R184). -/
  | verifyT
deriving DecidableEq, Repr

end Sys2Proof
end

