-- ==== Sys2Proof/WellFormed.lean ====
section
/-! DEFINITION. Which command words are legal (30_encoding.md R90, the three conditions, written with
masks and so apart from the decoder's field extraction), and which commands are well formed. -/

namespace Sys2Proof

/-- R90, second condition: no bit of RSV0 (7:3) or RSV1 (31:9) is 1. -/
def reservedClear (w : Word) : Bool := w &&& 0xFFFFFEF8#32 == 0#32

/-- R90, first condition: OP (2:0) is none of 0, 5, 6, 7. -/
def opLegal (w : Word) : Bool := !([0, 5, 6, 7].contains (w &&& 7#32).toNat)

/-- R90, third condition: not both OP = 1 and KSRC (bit 8) = 1. -/
def ksrcAllowed (w : Word) : Bool := !(w &&& 0x107#32 == 0x101#32)

/-- A command word is legal when no condition of R90 holds. -/
def legalWord (w : Word) : Bool := reservedClear w && opLegal w && ksrcAllowed w

/-- A command has no operand field (R80), so each of the seven is well formed as it stands; what a
command word may get wrong is `legalWord`'s to refuse. -/
def Instr.wf : Instr → Bool
  | .b32dec => true
  | .hotp => true
  | .hotpT => true
  | .totp => true
  | .totpT => true
  | .verify => true
  | .verifyT => true

end Sys2Proof
end

