-- ==== Sys2Proof/Decode.lean ====
section
/-! DEFINITION. The command decoder (30_encoding.md R80, R83, R90, R91), total on every 32-bit word and
refusing by name, and the encoder, written from R80's field table. -/

namespace Sys2Proof

/-- Why a command word is illegal (30_encoding.md R90). Each ends, at completion, in ERR_CMD (R202). -/
inductive DecodeError where
  /-- A bit of RSV0 or RSV1 is 1. -/
  | reservedBits
  /-- OP is 0, 5, 6 or 7. -/
  | illegalOp
  /-- OP = 1 (B32DEC) with KSRC = 1. -/
  | ksrcOnDecode
deriving DecidableEq, Repr

/-- What the decoder reads from a command word. -/
inductive Decoded where
  | command (i : Instr)
  | illegal (why : DecodeError)
deriving DecidableEq, Repr

/-- OP, bits 2:0 (R80). -/
def cmdOp (w : Word) : BitVec 3 := w.extractLsb' 0 3

/-- RSV0, bits 7:3 (R80). -/
def cmdRsv0 (w : Word) : BitVec 5 := w.extractLsb' 3 5

/-- KSRC, bit 8 (R80). -/
def cmdKsrc (w : Word) : Bool := w.getLsbD 8

/-- RSV1, bits 31:9 (R80). -/
def cmdRsv1 (w : Word) : BitVec 23 := w.extractLsb' 9 23

/-- The operation an OP and a KSRC select (R81, R83), for a word whose reserved bits are clear. -/
def decodeOp (op : Nat) (ksrc : Bool) : Decoded :=
  match op, ksrc with
  | 1, false => .command .b32dec
  | 1, true => .illegal .ksrcOnDecode
  | 2, false => .command .hotp
  | 2, true => .command .hotpT
  | 3, false => .command .totp
  | 3, true => .command .totpT
  | 4, false => .command .verify
  | 4, true => .command .verifyT
  | _, _ => .illegal .illegalOp

/-- Every command is one 32-bit word decoded by R80 alone (R91). -/
def decode (w : Word) : Decoded :=
  if cmdRsv1 w ≠ 0 ∨ cmdRsv0 w ≠ 0 then .illegal .reservedBits
  else decodeOp (cmdOp w).toNat (cmdKsrc w)

/-- The OP of a command (R80, R83). -/
def Instr.op : Instr → BitVec 3
  | .b32dec => 1
  | .hotp => 2
  | .hotpT => 2
  | .totp => 3
  | .totpT => 3
  | .verify => 4
  | .verifyT => 4

/-- The KSRC of a command (R80, R82, R83). -/
def Instr.ksrc : Instr → Bool
  | .b32dec => false
  | .hotp => false
  | .hotpT => true
  | .totp => false
  | .totpT => true
  | .verify => false
  | .verifyT => true

/-- The command word of R80, most significant field first: RSV1, KSRC, RSV0, OP. -/
def encodeFields (ksrc : Bool) (op : BitVec 3) : Word :=
  (0#23 ++ BitVec.ofBool ksrc ++ 0#5 ++ op : BitVec (23 + 1 + 5 + 3))

/-- The command word of a command (R83). -/
def encode (i : Instr) : Word := encodeFields i.ksrc i.op

/-- The 32-bit command word whose low `nbits` bits are those of `w`, the others 0. -/
def tableWord (nbits w : Nat) : Word := BitVec.ofNat 32 (w % 2 ^ nbits)

/-- The command the decoder reads from a word numbered as opcode_table.json numbers it. A command is one
32-bit word (R91), so nothing longer is one. -/
def decodeTableWord (nbits w : Nat) : Option Instr :=
  if nbits ≤ 32 then
    match decode (tableWord nbits w) with
    | .command i => some i
    | .illegal _ => none
  else none

end Sys2Proof
end

