-- ==== Sys2Proof/Machine/State.lean ====
section
/-! DEFINITION. The state of one core (10_state.md R20), with the environment that drives it, and its
reset value (R49). -/

namespace Sys2Proof.Machine

/-- The core raises no trap and takes no exception (60_exceptions.md R200, R211), every index is decoded
with no bus error (20_memory.md R61), and every command completes in a next state (30_encoding.md R86):
nothing stops the machine, so this type has no constructor. -/
inductive Fault where
deriving DecidableEq, Repr

/-- Why the model gives no meaning. -/
inductive Refusal where
  /-- Raised by `exec` alone, for a command that has no meaning yet (safe). No arm raises it now. -/
  | notModelled (mnemonic : String)
deriving DecidableEq, Repr

/-- One item of the total order of steps of 20_memory.md R71: an access of the host, a reset, or a turn of
the engine (00_scope.md R15; log 1). -/
inductive Event where
  /-- `HostRead(a)` (R62). -/
  | read (a : Index)
  /-- `HostWrite(a, v)` (R63). -/
  | write (a : Index) (v : Word)
  /-- `RESET` (70_reset_and_hazards.md R230). -/
  | reset
  /-- The engine's turn: `Complete` if it is enabled (30_encoding.md R86), nothing if it is not. -/
  | engine
deriving DecidableEq, Repr

/-- The byte locations of the register space (10_state.md R22, R42), keyed by word index, strictly rising,
with no entry for a byte 0x00, which is what every byte location holds after reset (R49; log 3). -/
abbrev Memory := List Host.Cell

/-- The complete architectural state (R20), then the model's own two fields. -/
structure State where
  /-- CMD (R23). -/
  cmd : Word
  /-- STATUS.BUSY (R24). -/
  busy : Bool
  /-- STATUS.DONE (R24). -/
  done : Bool
  /-- STATUS.MATCH (R24). -/
  matched : Bool
  /-- STATUS.ERR (R24). -/
  err : BitVec 4
  /-- HASH (R25). -/
  hash : Word
  /-- DIGITS (R26). -/
  digits : Word
  /-- STEP, in seconds (R27). -/
  stepSecs : Word
  /-- WINDOW (R28). -/
  window : Word
  /-- COUNTER, both halves (R29). -/
  counter : DWord
  /-- TIME in milliseconds, both halves (R30). -/
  time : DWord
  /-- TEXTLEN (R31). -/
  textLen : Word
  /-- KEYLEN (R32). -/
  keyLen : Word
  /-- CANDLEN (R33). -/
  candLen : Word
  /-- CTR, both halves (R34). -/
  ctr : DWord
  /-- TRUNC (R35). -/
  trunc : Word
  /-- CODE (R36). -/
  code : Word
  /-- CODE_STR, CAND, DIGEST, TEXT and KEY (R37 to R41). -/
  mem : Memory
  /-- The model's own: what the host, reset and the engine do next, first item first (log 1). -/
  agenda : List Event
  /-- The model's own: the word the latest `HostRead` returned to the host (log 2). -/
  readData : Option Word
deriving DecidableEq, Repr

/-- The state after reset (10_state.md R49). -/
def State.reset : State where
  cmd := 0
  busy := false
  done := false
  matched := false
  err := 0
  hash := 0
  digits := 6
  stepSecs := 30
  window := 1
  counter := 0
  time := 0
  textLen := 0
  keyLen := 0
  candLen := 0
  ctr := 0
  trunc := 0
  code := 0
  mem := []
  agenda := []
  readData := none

end Sys2Proof.Machine
end

