-- ==== Sys2Proof/Machine/Bytes.lean ====
section
/-! DEFINITION. Bits, bytes and byte sequences (00_scope.md R11, R12) and the halves of a 64-bit register
(10_state.md R29). -/

namespace Sys2Proof.Machine

/-- `rotl32(x, n)` (R11). -/
def rotl32 (x : Word) (n : Nat) : Word := (x <<< n) ||| (x >>> (32 - n))

/-- `rep(b, n)` (R12). -/
def rep (b : Byte) (n : Nat) : List Byte := List.replicate n b

/-- `xor(A, b)` (R12). -/
def xorBytes (A : List Byte) (b : Byte) : List Byte := A.map (· ^^^ b)

/-- `be32(w)`: the 4 bytes of a word, most significant first (R12). -/
def be32 (w : Word) : List Byte :=
  [w.extractLsb' 24 8, w.extractLsb' 16 8, w.extractLsb' 8 8, w.extractLsb' 0 8]

/-- `be64(c)[i] = (c >> (8 * (7 - i))) & 0xFF` for i = 0 to 7 (R12, 42_hotp.md R151). -/
def be64 (c : DWord) : List Byte := (List.range 8).map fun i => (c >>> (8 * (7 - i))).setWidth 8

/-- `from_be32(S)` on 4 bytes (R12, 41_sha1_hmac.md R122); a shorter sequence is no operand of it (log 10). -/
def fromBe32 : List Byte → Word
  | a :: b :: c :: d :: _ =>
    a.setWidth 32 <<< 24 ||| b.setWidth 32 <<< 16 ||| c.setWidth 32 <<< 8 ||| d.setWidth 32
  | _ => 0

/-- A sequence with zero bytes behind it up to `n` bytes (the zero tail of R106, R131, R156). -/
def zeroPad (n : Nat) (A : List Byte) : List Byte := A ++ rep 0 (n - A.length)

/-- Bits 31:0 of a 64-bit register (10_state.md R29, R30, R34). -/
def loHalf (c : DWord) : Word := c.extractLsb' 0 32

/-- Bits 63:32 of a 64-bit register (R29, R30, R34). -/
def hiHalf (c : DWord) : Word := c.extractLsb' 32 32

/-- A 64-bit register made of its two halves: `lo + 2^32 * hi` (R29, R30, R84). -/
def ofHalves (hi lo : Word) : DWord := (hi ++ lo : BitVec (32 + 32))

end Sys2Proof.Machine
end

