-- ==== Sys2Proof/Machine/Flags.lean ====
section
/-! DEFINITION. The flags: the four fields of STATUS and nothing else (10_state.md R24, R46), the word they
form, and the error codes (60_exceptions.md R201). -/

namespace Sys2Proof.Machine

/-- No error (R201). -/
def errNone : BitVec 4 := 0

/-- ERR_CMD: the command word is illegal (R201, R202). -/
def errCmd : BitVec 4 := 1

/-- ERR_HASH: HASH is not 0 (R201, R203). -/
def errHash : BitVec 4 := 2

/-- ERR_DIGITS: DIGITS is not in 1 to 9 (R201, R204). -/
def errDigits : BitVec 4 := 3

/-- ERR_STEP: STEP is 0 (R201, R205). -/
def errStep : BitVec 4 := 4

/-- ERR_LEN: a length register exceeds its buffer (R201, R206). -/
def errLen : BitVec 4 := 5

/-- A flag as a word. -/
def flagBit (b : Bool) : Word := (BitVec.ofBool b).setWidth 32

/-- STATUS as a word: `BUSY | DONE << 1 | MATCH << 2 | ERR << 4`; the reserved bits read 0 (R24). -/
def statusWord (s : State) : Word :=
  flagBit s.busy ||| flagBit s.done <<< 1 ||| flagBit s.matched <<< 2 ||| s.err.setWidth 32 <<< 4

/-- What start does to the flags (30_encoding.md R85). -/
def setStartFlags (s : State) : State := { s with busy := true, done := false, matched := false, err := 0 }

/-- What completion does to the flags (30_encoding.md R86). -/
def setEndFlags (m : Bool) (e : BitVec 4) (s : State) : State :=
  { s with busy := false, done := true, matched := m, err := e }

end Sys2Proof.Machine
end

