-- ==== Sys2Proof/Machine/RegMap.lean ====
section
/-! DEFINITION. The register map (10_state.md R22) and its address decode (20_memory.md R61). -/

namespace Sys2Proof.Machine

/-- The scalar registers, by the names of the map (R22). -/
inductive Reg where
  | cmd | status | hash | digits | stepSecs | window | counterLo | counterHi | timeLo | timeHi
  | textLen | keyLen | candLen | ctrLo | ctrHi | trunc | code
deriving DecidableEq, Repr

/-- The byte buffers (R22). -/
inductive Buf where
  | codeStr | cand | digest | text | key
deriving DecidableEq, Repr

/-- What an index selects (R61). -/
inductive Loc where
  /-- A scalar register. -/
  | reg (r : Reg)
  /-- Entry `i` of a byte buffer. -/
  | byte (b : Buf) (i : Nat)
  /-- A reserved location (R44). -/
  | reserved
deriving DecidableEq, Repr

/-- The index of a buffer's entry 0 (R22). -/
def Buf.base : Buf → Nat
  | .codeStr => 0x020
  | .cand => 0x030
  | .digest => 0x040
  | .text => 0x100
  | .key => 0x200

/-- How many entries a buffer has (R22, R9). -/
def Buf.size : Buf → Nat
  | .codeStr => Config.codeStrMax
  | .cand => Config.candMax
  | .digest => Config.digestMax
  | .text => Config.textMax
  | .key => Config.keyMax

/-- The RW byte locations are the entries of CAND, TEXT and KEY (20_memory.md R63). -/
def Buf.writable : Buf → Bool
  | .codeStr => false
  | .cand => true
  | .digest => false
  | .text => true
  | .key => true

/-- Whether index `a` is an entry of the buffer. -/
def Buf.holds (b : Buf) (a : Nat) : Bool := decide (b.base ≤ a) && decide (a < b.base + b.size)

/-- Whether index `a` is a byte location (R42). -/
def byteIndex (a : Nat) : Bool :=
  Buf.codeStr.holds a || Buf.cand.holds a || Buf.digest.holds a || Buf.text.holds a || Buf.key.holds a

/-- The index of a scalar register (R22). -/
def Reg.index : Reg → Index
  | .cmd => 0x000
  | .status => 0x001
  | .hash => 0x002
  | .digits => 0x003
  | .stepSecs => 0x004
  | .window => 0x005
  | .counterLo => 0x006
  | .counterHi => 0x007
  | .timeLo => 0x008
  | .timeHi => 0x009
  | .textLen => 0x00A
  | .keyLen => 0x00B
  | .candLen => 0x00C
  | .ctrLo => 0x010
  | .ctrHi => 0x011
  | .trunc => 0x012
  | .code => 0x013

/-- The index of entry `i` of a buffer (R22). -/
def Buf.index (b : Buf) (i : Nat) : Index := BitVec.ofNat 10 (b.base + i)

/-- The byte location or reserved location an index selects, when it selects no scalar register (R61). -/
def locateByte (n : Nat) : Loc :=
  if Buf.codeStr.holds n then .byte .codeStr (n - Buf.codeStr.base)
  else if Buf.cand.holds n then .byte .cand (n - Buf.cand.base)
  else if Buf.digest.holds n then .byte .digest (n - Buf.digest.base)
  else if Buf.text.holds n then .byte .text (n - Buf.text.base)
  else if Buf.key.holds n then .byte .key (n - Buf.key.base)
  else .reserved

/-- Address decode (R61): every 10-bit index selects a location. -/
def locate (a : Index) : Loc :=
  match a.toNat with
  | 0x000 => .reg .cmd
  | 0x001 => .reg .status
  | 0x002 => .reg .hash
  | 0x003 => .reg .digits
  | 0x004 => .reg .stepSecs
  | 0x005 => .reg .window
  | 0x006 => .reg .counterLo
  | 0x007 => .reg .counterHi
  | 0x008 => .reg .timeLo
  | 0x009 => .reg .timeHi
  | 0x00A => .reg .textLen
  | 0x00B => .reg .keyLen
  | 0x00C => .reg .candLen
  | 0x010 => .reg .ctrLo
  | 0x011 => .reg .ctrHi
  | 0x012 => .reg .trunc
  | 0x013 => .reg .code
  | n => locateByte n

end Sys2Proof.Machine
end

