-- ==== Sys2Proof/Machine/Ops.lean ====
section
/-! DEFINITION. The shared operations: the byte memory, start (30_encoding.md R85), `Check`
(60_exceptions.md R207), completion (30_encoding.md R86) and the error outcome (60_exceptions.md R208),
which is what this core has in the place of an exception. There is no return from one (R213). -/

namespace Sys2Proof.Machine

/-! ## The byte memory (10_state.md R42) -/

/-- The byte at index `a`; an unlisted index holds 0x00, the reset contents (R49; log 3). -/
def Memory.read : Memory → Nat → Byte
  | [], _ => 0
  | c :: m, a => if c.1 = a then c.2 else Memory.read m a

/-- The memory without an entry at index `a`. -/
def Memory.erase (m : Memory) (a : Nat) : Memory := m.filter fun c => c.1 ≠ a

/-- The entry for `a`, put before the first larger index. -/
def Memory.insert : Memory → Nat → Byte → Memory
  | [], a, v => [(a, v)]
  | c :: m, a, v => if a < c.1 then (a, v) :: c :: m else c :: Memory.insert m a v

/-- Store one byte, keeping the canonical form: a byte 0x00 leaves no entry. -/
def Memory.write (m : Memory) (a : Nat) (v : Byte) : Memory :=
  if v = 0 then m.erase a else Memory.insert (m.erase a) a v

/-- The `n` bytes from index `a` on. -/
def Memory.readBytes (m : Memory) (a : Nat) : Nat → List Byte
  | 0 => []
  | n + 1 => m.read a :: Memory.readBytes m (a + 1) n

/-- Store a byte sequence from index `a` on. -/
def Memory.writeBytes (m : Memory) (a : Nat) : List Byte → Memory
  | [] => m
  | v :: vs => Memory.writeBytes (m.write a v) (a + 1) vs

/-- The canonical form: indexes strictly rising, no entry 0x00. -/
abbrev Memory.wf (m : Memory) : Prop := m.Pairwise (fun c d => c.1 < d.1) ∧ ∀ c ∈ m, c.2 ≠ 0

/-- Entries stand at byte locations only (10_state.md R22, R44). -/
abbrev Memory.inByteLocations (m : Memory) : Prop := ∀ c ∈ m, byteIndex c.1 = true

/-- Entry `i` of a buffer. -/
def State.bufAt (s : State) (b : Buf) (i : Nat) : Byte := s.mem.read (b.base + i)

/-- All entries of a buffer, first entry first. -/
def State.buf (s : State) (b : Buf) : List Byte := s.mem.readBytes b.base b.size

/-! ## Start -/

/-- Start (30_encoding.md R85): `CMD <- v`, BUSY 1, DONE 0, MATCH 0, ERR 0, nothing else. -/
def startCommand (v : Word) (s : State) : State := setStartFlags { s with cmd := v }

/-! ## Check -/

/-- `Check` (60_exceptions.md R207) past the three lines that judge the command word: the code of the
first condition that holds, for a command of operation `op` (1 to 4) and key source `ksrc`. -/
def checkArgs (op : Nat) (ksrc : Bool) (s : State) : BitVec 4 :=
  if op ≥ 2 ∧ s.hash ≠ 0 then errHash
  else if op ≥ 2 ∧ (s.digits.toNat < 1 ∨ s.digits.toNat > 9) then errDigits
  else if op ≥ 3 ∧ s.stepSecs = 0 then errStep
  else if (op = 1 ∨ ksrc = true) ∧ s.textLen.toNat > Config.textMax then errLen
  else if op ≥ 2 ∧ ksrc = false ∧ s.keyLen.toNat > Config.keyMax then errLen
  else errNone

/-- `Check(state)` (R207), whole: the command in CMD. -/
def check (s : State) : BitVec 4 :=
  let op := (cmdOp s.cmd).toNat
  let ksrc := cmdKsrc s.cmd
  if cmdRsv1 s.cmd ≠ 0 ∨ cmdRsv0 s.cmd ≠ 0 then errCmd
  else if op = 0 ∨ op ≥ 5 then errCmd
  else if op = 1 ∧ ksrc = true then errCmd
  else checkArgs op ksrc s

/-! ## Completion -/

/-- The outcome record of 30_encoding.md R88. -/
structure Result where
  keyWrite : Option (List Byte)
  ctr : DWord
  trunc : Word
  code : Word
  str : List Byte
  digest : List Byte
  matched : Bool
  err : BitVec 4
deriving DecidableEq, Repr

/-- `ZERO` (R88). -/
def zeroResult : Result where
  keyWrite := none
  ctr := 0
  trunc := 0
  code := 0
  str := rep 0 9
  digest := rep 0 20
  matched := false
  err := 0

/-- The key write of R86 and 40_base32.md R106: all 160 entries of KEY, the tail zero, and KEYLEN. -/
def writeKey (kw : Option (List Byte)) (s : State) : State :=
  match kw with
  | none => s
  | some k =>
    { s with
      mem := s.mem.writeBytes Buf.key.base (zeroPad Config.keyMax k)
      keyLen := BitVec.ofNat 32 k.length }

/-- The result registers of R86: CTR, TRUNC, CODE, CODE_STR, DIGEST. -/
def writeResults (o : Result) (s : State) : State :=
  { s with
    ctr := o.ctr
    trunc := o.trunc
    code := o.code
    mem := (s.mem.writeBytes Buf.codeStr.base o.str).writeBytes Buf.digest.base o.digest }

/-- Completion's one atomic step (R86), from the outcome record. -/
def complete (o : Result) (s : State) : State :=
  setEndFlags o.matched o.err (writeResults o (writeKey o.keyWrite s))

/-- The error outcome (60_exceptions.md R208): `ZERO with err = e`. -/
def errorOutcome (e : BitVec 4) (s : State) : State := complete { zeroResult with err := e } s

/-! ## Reset -/

/-- `RESET` (70_reset_and_hazards.md R230): every piece of architectural state takes its reset value; what
the environment still does, and what the host has read, are not the core's (log 1, log 2). -/
def resetCore (s : State) : State := { State.reset with agenda := s.agenda, readData := s.readData }

end Sys2Proof.Machine
end

