-- ==== Sys2Proof/Machine/Operands.lean ====
section
/-! DEFINITION. Operand assembly (30_encoding.md R84): the strings a command reads, from a buffer and its
length register. The scalar operands are the registers as they stand. -/

namespace Sys2Proof.Machine

/-- The Base32 text `TEXT[0 .. TEXTLEN-1]` (R84, 10_state.md R31), for TEXTLEN at most 256 (R206). -/
def textString (s : State) : List Byte := s.mem.readBytes Buf.text.base s.textLen.toNat

/-- The key `KEY[0 .. KEYLEN-1]` (R84, 10_state.md R32), for KEYLEN at most 160 (R206). -/
def keyString (s : State) : List Byte := s.mem.readBytes Buf.key.base s.keyLen.toNat

/-- The buffer CAND, all 16 entries (R84, 10_state.md R38). -/
def candBuffer (s : State) : List Byte := s.buf .cand

/-- The digit count as a number (R26). -/
def digitCount (s : State) : Nat := s.digits.toNat

end Sys2Proof.Machine
end

