-- ==== Sys2Proof/Machine/Base32.lean ====
section
/-! DEFINITION. The Base32 decoder (40_base32.md) and the command B32DEC. -/

namespace Sys2Proof.Machine

/-- `CharVal(ch)` (R102; the alphabet is R101's). -/
def charVal (ch : Byte) : Option Nat :=
  if 0x41 ≤ ch.toNat ∧ ch.toNat ≤ 0x5A then some (ch.toNat - 0x41)
  else if 0x61 ≤ ch.toNat ∧ ch.toNat ≤ 0x7A then some (ch.toNat - 0x61)
  else if 0x32 ≤ ch.toNat ∧ ch.toNat ≤ 0x37 then some (ch.toNat - 0x32 + 26)
  else none

/-- "Strip trailing = padding characters" (R104). -/
def stripPadding (T : List Byte) : List Byte := (T.reverse.dropWhile (· == 0x3D#8)).reverse

/-- The loop of R104 from the stream bits held in `acc`, `nbits` of them, to the bytes still to come out. -/
def b32Loop : List Byte → Nat → Nat → List Byte
  | [], _, _ => []
  | ch :: T, acc, nbits =>
    match charVal ch with
    | none => b32Loop T acc nbits
    | some v =>
      if nbits + 5 ≥ 8 then
        BitVec.ofNat 8 ((acc <<< 5 ||| v) >>> (nbits + 5 - 8)) ::
          b32Loop T ((acc <<< 5 ||| v) &&& (1 <<< (nbits + 5 - 8) - 1)) (nbits + 5 - 8)
      else b32Loop T (acc <<< 5 ||| v) (nbits + 5)

/-- `B32Decode(T)` (R104). -/
def b32Decode (T : List Byte) : List Byte := b32Loop (stripPadding T) 0 0

/-- The key of a command with KSRC = 1: the text decoded (30_encoding.md R82, R88). -/
def decodedKey (s : State) : List Byte := b32Decode (textString s)

/-- B32DEC (R107): decode the text into KEY and KEYLEN, every result zero. -/
def execB32dec (s : State) : Host.Outcome State Fault Refusal :=
  if checkArgs 1 false s ≠ errNone then .next (errorOutcome (checkArgs 1 false s) s)
  else .next (complete { zeroResult with keyWrite := some (decodedKey s) } s)

end Sys2Proof.Machine
end

