-- ==== Sys2Proof/Machine/Sha1.lean ====
section
/-! DEFINITION. SHA-1 and HMAC-SHA-1 (41_sha1_hmac.md R121 to R131), functions that HOTP, TOTP and VERIFY
use; no command selects them alone. -/

namespace Sys2Proof.Machine

/-- The five chaining words H0 to H4, also the working words a to e (R124, R125). -/
structure Chain where
  a : Word
  b : Word
  c : Word
  d : Word
  e : Word
deriving DecidableEq, Repr

/-- The number of zero bytes of the padding: `z = (55 - L) mod 64` (R121), as a natural number. -/
def padZeros (L : Nat) : Nat := (119 - L % 64) % 64

/-- `Pad(M)` (R121), for a message of less than 2^61 bytes (log 10). -/
def sha1Pad (M : List Byte) : List Byte :=
  M ++ [0x80#8] ++ rep 0 (padZeros M.length) ++ be64 (BitVec.ofNat 64 (8 * M.length))

/-- `f_t` (R123). -/
def sha1F (t : Nat) (x y z : Word) : Word :=
  if t < 20 then (x &&& y) ||| (~~~x &&& z)
  else if t < 40 then x ^^^ y ^^^ z
  else if t < 60 then (x &&& y) ||| (x &&& z) ||| (y &&& z)
  else x ^^^ y ^^^ z

/-- `K_t` (R123). -/
def sha1K (t : Nat) : Word :=
  if t < 20 then 0x5A827999#32
  else if t < 40 then 0x6ED9EBA1#32
  else if t < 60 then 0x8F1BBCDC#32
  else 0xCA62C1D6#32

/-- The initial chaining value (R124). -/
def sha1Init : Chain where
  a := 0x67452301#32
  b := 0xEFCDAB89#32
  c := 0x98BADCFE#32
  d := 0x10325476#32
  e := 0xC3D2E1F0#32

/-- The first `n` words of a block, big-endian (R122). -/
def blockWords : Nat → List Byte → List Word
  | 0, _ => []
  | n + 1, bs => fromBe32 (bs.take 4) :: blockWords n (bs.drop 4)

/-- The next word of the message schedule, `W[t]` for `t` the number of words so far (R125). -/
def nextWord (W : List Word) : Word :=
  let t := W.length
  rotl32 (W.getD (t - 3) 0 ^^^ W.getD (t - 8) 0 ^^^ W.getD (t - 14) 0 ^^^ W.getD (t - 16) 0) 1

/-- `n` more words of the message schedule (R125). -/
def schedule : Nat → List Word → List Word
  | 0, W => W
  | n + 1, W => schedule n (W ++ [nextWord W])

/-- One round `t` with schedule word `w` (R125). -/
def sha1Round (t : Nat) (w : Word) (h : Chain) : Chain where
  a := rotl32 h.a 5 + sha1F t h.b h.c h.d + h.e + sha1K t + w
  b := h.a
  c := rotl32 h.b 30
  d := h.c
  e := h.d

/-- The rounds from `t` on, one for each remaining schedule word (R125). -/
def sha1Rounds : Nat → List Word → Chain → Chain
  | _, [], h => h
  | t, w :: ws, h => sha1Rounds (t + 1) ws (sha1Round t w h)

/-- `Compress` (R125). -/
def compress (h : Chain) (block : List Byte) : Chain :=
  let r := sha1Rounds 0 (schedule 64 (blockWords 16 block)) h
  { a := h.a + r.a, b := h.b + r.b, c := h.c + r.c, d := h.d + r.d, e := h.e + r.e }

/-- Block `b` of the padded message: bytes 64b to 64b + 63 (R122). -/
def blockAt (P : List Byte) (b : Nat) : List Byte := (P.drop (64 * b)).take 64

/-- The loop over the first `n` blocks (R126). -/
def compressBlocks (n : Nat) (P : List Byte) (h : Chain) : Chain :=
  (List.range n).foldl (fun h b => compress h (blockAt P b)) h

/-- The 20 bytes of H0 to H4 (R126). -/
def chainBytes (h : Chain) : List Byte := be32 h.a ++ be32 h.b ++ be32 h.c ++ be32 h.d ++ be32 h.e

/-- `SHA1(M)` (R126). -/
def sha1 (M : List Byte) : List Byte :=
  let P := sha1Pad M
  chainBytes (compressBlocks (P.length / 64) P sha1Init)

/-- `K0` (R131): the key, hashed when longer than 64 bytes, padded with zeros to 64 bytes. -/
def hmacKeyBlock (key : List Byte) : List Byte :=
  zeroPad Config.blockSize (if key.length > Config.blockSize then sha1 key else key)

/-- `HMAC_SHA1(key, msg)` (R131; ipad 0x36 and opad 0x5C, R130). -/
def hmacSha1 (key msg : List Byte) : List Byte :=
  let K0 := hmacKeyBlock key
  sha1 (xorBytes K0 0x5C ++ sha1 (xorBytes K0 0x36 ++ msg))

end Sys2Proof.Machine
end

