-- ==== Sys2Proof/Machine/Hotp.lean ====
section
/-! DEFINITION. Dynamic truncation, reduction and formatting (42_hotp.md) and the commands HOTP and HOTP.T. -/

namespace Sys2Proof.Machine

/-- `DynTrunc(D)` for a 20-byte digest (R152). -/
def dynTrunc (D : List Byte) : Word :=
  let offset := (D.getD 19 0 &&& 0x0F#8).toNat
  (D.getD offset 0 &&& 0x7F#8).setWidth 32 <<< 24
    ||| (D.getD (offset + 1) 0).setWidth 32 <<< 16
    ||| (D.getD (offset + 2) 0).setWidth 32 <<< 8
    ||| (D.getD (offset + 3) 0).setWidth 32

/-- `CodeValue(b, d) = b mod 10^d` (R153). -/
def codeValue (b : Word) (d : Nat) : Word := BitVec.ofNat 32 (b.toNat % 10 ^ d)

/-- `CodeStr(v, d)` (R154): d ASCII digits, most significant first. -/
def codeStr (v : Word) (d : Nat) : List Byte :=
  (List.range d).map fun i => BitVec.ofNat 8 (0x30 + v.toNat / 10 ^ (d - 1 - i) % 10)

/-- `HotpStr(key, c, d)` (R155). -/
def hotpStr (key : List Byte) (c : DWord) (d : Nat) : List Byte :=
  codeStr (codeValue (dynTrunc (hmacSha1 key (be64 c))) d) d

/-- `HotpOutcome(key, c, d)` (R156), with the key write of the command. -/
def hotpResult (kw : Option (List Byte)) (key : List Byte) (c : DWord) (d : Nat) : Result :=
  let digest := hmacSha1 key (be64 c)
  let trunc := dynTrunc digest
  let code := codeValue trunc d
  { keyWrite := kw
    ctr := c
    trunc := trunc
    code := code
    str := zeroPad Config.codeStrMax (codeStr code d)
    digest := digest
    matched := false
    err := 0 }

/-- HOTP (R157, CMD[8] = 0): the code of COUNTER under the key in KEY. -/
def execHotp (s : State) : Host.Outcome State Fault Refusal :=
  if checkArgs 2 false s ≠ errNone then .next (errorOutcome (checkArgs 2 false s) s)
  else .next (complete (hotpResult none (keyString s) s.counter (digitCount s)) s)

/-- HOTP.T (R157, CMD[8] = 1): the code of COUNTER under the key decoded from TEXT, which goes to KEY. -/
def execHotpT (s : State) : Host.Outcome State Fault Refusal :=
  if checkArgs 2 true s ≠ errNone then .next (errorOutcome (checkArgs 2 true s) s)
  else .next (complete (hotpResult (some (decodedKey s)) (decodedKey s) s.counter (digitCount s)) s)

end Sys2Proof.Machine
end

