-- ==== Sys2Proof/Machine/Totp.lean ====
section
/-! DEFINITION. Time to counter (43_totp.md) and the commands TOTP and TOTP.T. -/

namespace Sys2Proof.Machine

/-- `TimeToCounter(t, s)` (R171), t in milliseconds, s >= 1 in seconds. -/
def timeToCounter (t : DWord) (s : Word) : DWord := BitVec.ofNat 64 (t.toNat / 1000 / s.toNat)

/-- The counter of the time step that holds TIME (R173, R181). -/
def centreCounter (s : State) : DWord := timeToCounter s.time s.stepSecs

/-- TOTP (R173, CMD[8] = 0): the code of the counter of TIME under the key in KEY. -/
def execTotp (s : State) : Host.Outcome State Fault Refusal :=
  if checkArgs 3 false s ≠ errNone then .next (errorOutcome (checkArgs 3 false s) s)
  else .next (complete (hotpResult none (keyString s) (centreCounter s) (digitCount s)) s)

/-- TOTP.T (R173, CMD[8] = 1): the same under the key decoded from TEXT, which goes to KEY. -/
def execTotpT (s : State) : Host.Outcome State Fault Refusal :=
  if checkArgs 3 true s ≠ errNone then .next (errorOutcome (checkArgs 3 true s) s)
  else .next (complete (hotpResult (some (decodedKey s)) (decodedKey s) (centreCounter s) (digitCount s)) s)

end Sys2Proof.Machine
end

