-- ==== Sys2Proof/Machine/Verify.lean ====
section
/-! DEFINITION. The window comparator (44_verify.md) and the commands VERIFY and VERIFY.T. -/

namespace Sys2Proof.Machine

/-- Whether some counter of `start .. start + n - 1` satisfies `p`; the order of trying is unobservable
(R183). -/
def anyCounter (p : Nat → Bool) (start : Nat) : Nat → Bool
  | 0 => false
  | n + 1 => p (start + n) || anyCounter p start n

/-- The least candidate counter: `c0 - w`, or 0 where that is below 0 (R181). -/
def firstCandidate (c0 w : Nat) : Nat := c0 - w

/-- How many candidate counters there are: `min(w, c0) + w + 1` (R181). -/
def candidateCount (c0 w : Nat) : Nat := min w c0 + w + 1

/-- `VerifyMatch(key, c0, w, d, CAND, clen)` (R183, R182). -/
def verifyMatch (key : List Byte) (c0 : DWord) (w : Word) (d : Nat) (cand : List Byte) (clen : Word) : Bool :=
  decide (clen.toNat = d) &&
    anyCounter (fun c => decide (hotpStr key (BitVec.ofNat 64 c) d = cand.take d))
      (firstCandidate c0.toNat w.toNat) (candidateCount c0.toNat w.toNat)

/-- The outcome of VERIFY under a key (R184, R185): MATCH and the centre counter, the rest zero. -/
def verifyResult (kw : Option (List Byte)) (key : List Byte) (s : State) : Result :=
  { zeroResult with
    keyWrite := kw
    ctr := centreCounter s
    matched := verifyMatch key (centreCounter s) s.window (digitCount s) (candBuffer s) s.candLen }

/-- VERIFY (R184, CMD[8] = 0): compare CAND with the codes of the window, under the key in KEY. -/
def execVerify (s : State) : Host.Outcome State Fault Refusal :=
  if checkArgs 4 false s ≠ errNone then .next (errorOutcome (checkArgs 4 false s) s)
  else .next (complete (verifyResult none (keyString s) s) s)

/-- VERIFY.T (R184, CMD[8] = 1): the same under the key decoded from TEXT, which goes to KEY. -/
def execVerifyT (s : State) : Host.Outcome State Fault Refusal :=
  if checkArgs 4 true s ≠ errNone then .next (errorOutcome (checkArgs 4 true s) s)
  else .next (complete (verifyResult (some (decodedKey s)) (decodedKey s) s) s)

end Sys2Proof.Machine
end

