-- ==== Sys2Proof/Machine/Dispatch.lean ====
section
/-! DEFINITION. The completion of each legal command (30_encoding.md R86, R88), one arm per command. -/

namespace Sys2Proof.Machine

def exec (i : Instr) (s : State) : Host.Outcome State Fault Refusal :=
  match i with
  | .b32dec => Sys2Proof.Machine.execB32dec s
  | .hotp => Sys2Proof.Machine.execHotp s
  | .hotpT => Sys2Proof.Machine.execHotpT s
  | .totp => Sys2Proof.Machine.execTotp s
  | .totpT => Sys2Proof.Machine.execTotpT s
  | .verify => Sys2Proof.Machine.execVerify s
  | .verifyT => Sys2Proof.Machine.execVerifyT s

end Sys2Proof.Machine
end

