-- ==== Sys2Proof/Machine/Engine.lean ====
section
/-! DEFINITION. The engine's step `Complete` (30_encoding.md R86): the command in CMD, decoded, or ERR_CMD. -/

namespace Sys2Proof.Machine

/-- The completion of the command word in CMD: of a legal word its command's, of any other the error
outcome ERR_CMD (30_encoding.md R90, 60_exceptions.md R202). -/
def completeCommand (s : State) : Host.Outcome State Fault Refusal :=
  match decode s.cmd with
  | .command i => exec i s
  | .illegal _ => .next (errorOutcome errCmd s)

/-- A turn of the engine: `Complete` is enabled exactly when `STATUS.BUSY = 1` (R86); else nothing happens
(log 1). -/
def engineTurn (s : State) : Host.Outcome State Fault Refusal :=
  if s.busy then completeCommand s else .next s

end Sys2Proof.Machine
end

