-- ==== Sys2Proof/Machine/Port.lean ====
section
/-! DEFINITION. The register port: `HostRead` and `HostWrite` (20_memory.md R62, R63). -/

namespace Sys2Proof.Machine

/-- The value of a scalar register as a word (10_state.md R22 to R36). -/
def readReg (r : Reg) (s : State) : Word :=
  match r with
  | .cmd => s.cmd
  | .status => statusWord s
  | .hash => s.hash
  | .digits => s.digits
  | .stepSecs => s.stepSecs
  | .window => s.window
  | .counterLo => loHalf s.counter
  | .counterHi => hiHalf s.counter
  | .timeLo => loHalf s.time
  | .timeHi => hiHalf s.time
  | .textLen => s.textLen
  | .keyLen => s.keyLen
  | .candLen => s.candLen
  | .ctrLo => loHalf s.ctr
  | .ctrHi => hiHalf s.ctr
  | .trunc => s.trunc
  | .code => s.code

/-- The word `HostRead(a)` returns (R62): a scalar as it stands, a byte zero-extended (R42), a reserved
location as 0 (R44). -/
def portRead (a : Index) (s : State) : Word :=
  match locate a with
  | .reg r => readReg r s
  | .byte b i => (s.bufAt b i).setWidth 32
  | .reserved => 0

/-- `MemRead(a, 2) = lo + 2^32 * hi`, the pair of locations a, a + 1 (00_scope.md R13). -/
def portRead64 (a : Index) (s : State) : DWord := ofHalves (portRead (a + 1) s) (portRead a s)

/-- `HostRead(a)` (R62): no core state changes; the host has the word (log 2). -/
def hostRead (a : Index) (s : State) : State := { s with readData := some (portRead a s) }

/-- A write to a scalar register while the core is idle (R63): CMD starts the command (R85), an RW register
takes all 32 bits, a read-only register ignores the write (10_state.md R43). -/
def writeReg (r : Reg) (v : Word) (s : State) : State :=
  match r with
  | .cmd => startCommand v s
  | .status => s
  | .hash => { s with hash := v }
  | .digits => { s with digits := v }
  | .stepSecs => { s with stepSecs := v }
  | .window => { s with window := v }
  | .counterLo => { s with counter := ofHalves (hiHalf s.counter) v }
  | .counterHi => { s with counter := ofHalves v (loHalf s.counter) }
  | .timeLo => { s with time := ofHalves (hiHalf s.time) v }
  | .timeHi => { s with time := ofHalves v (loHalf s.time) }
  | .textLen => { s with textLen := v }
  | .keyLen => { s with keyLen := v }
  | .candLen => { s with candLen := v }
  | .ctrLo => s
  | .ctrHi => s
  | .trunc => s
  | .code => s

/-- A write to a byte location while the core is idle: bits 7:0 are stored in an RW location (R63, R42), a
read-only one ignores the write (R43). -/
def writeByte (b : Buf) (i : Nat) (v : Word) (s : State) : State :=
  if b.writable then { s with mem := s.mem.write (b.base + i) (v.setWidth 8) } else s

/-- `HostWrite(a, v)` (R63); dropped while BUSY (70_reset_and_hazards.md R240). -/
def hostWrite (a : Index) (v : Word) (s : State) : State :=
  if s.busy then s
  else
    match locate a with
    | .reg r => writeReg r v s
    | .byte b i => writeByte b i v s
    | .reserved => s

end Sys2Proof.Machine
end

