-- ==== Sys2Proof/Machine/Step.lean ====
section
/-! DEFINITION. One step: the next item of the total order of steps (20_memory.md R71). -/

namespace Sys2Proof.Machine

/-- The first item of the agenda happens, and leaves the agenda. With nothing on the agenda it is the
engine's turn, so that a started command completes after finitely many steps (70_reset_and_hazards.md R250;
log 1). -/
def step (s : State) : Host.Outcome State Fault Refusal :=
  match s.agenda with
  | [] => engineTurn s
  | .engine :: rest => engineTurn { s with agenda := rest }
  | .read a :: rest => .next (hostRead a { s with agenda := rest })
  | .write a v :: rest => .next (hostWrite a v { s with agenda := rest })
  | .reset :: rest => .next (resetCore { s with agenda := rest })

/-- The state in which the command word `w` has been accepted (30_encoding.md R85) and the engine's turn
comes next (log 6). -/
def State.withFetchWord (s : State) (nbits w : Nat) : State :=
  { startCommand (tableWord nbits w) s with agenda := .engine :: s.agenda }

end Sys2Proof.Machine
end

