-- ==== Sys2Proof/Machine/Reference.lean ====
section
/-! DEFINITION. `Exec` as 30_encoding.md R88 writes it, one function of the registers that reads the command
from CMD. The machine does not use it: it is the spec's own form, to which the engine's step can be held. -/

namespace Sys2Proof.Machine

/-- `Exec(state)` (R88). -/
def specExec (s : State) : Result :=
  let op := (cmdOp s.cmd).toNat
  let ksrc := cmdKsrc s.cmd
  let e := check s
  if e ≠ 0 then { zeroResult with err := e }
  else
    let fromText := op = 1 ∨ ksrc = true
    let key := if fromText then b32Decode (textString s) else keyString s
    let kw := if fromText then some key else none
    if op = 1 then { zeroResult with keyWrite := kw }
    else if op = 2 then { hotpResult none key s.counter s.digits.toNat with keyWrite := kw }
    else if op = 3 then
      { hotpResult none key (timeToCounter s.time s.stepSecs) s.digits.toNat with keyWrite := kw }
    else
      let c0 := timeToCounter s.time s.stepSecs
      { zeroResult with
        keyWrite := kw
        ctr := c0
        matched := verifyMatch key c0 s.window s.digits.toNat (candBuffer s) s.candLen }

end Sys2Proof.Machine
end

