-- ==== Sys2Proof/Machine/Script.lean ====
section
/-! DEFINITION. The host's notation (30_encoding.md R93, R95, R96). First each operation that only writes, as
the list of events the host puts on the agenda; then every operation as the host performs it, access by access,
with the value it has: WAIT and RDKEY look at a returned word before they choose the next access. -/

namespace Sys2Proof.Machine

/-! ## Lists of events -/

/-- `WR <reg>, <value>` of a scalar register (R93). -/
def wrReg (r : Reg) (v : Word) : List Event := [.write r.index v]

/-- `WR` of the entries of a buffer, from entry `i` on. -/
def wrBytes (b : Buf) (i : Nat) : List Byte → List Event
  | [] => []
  | v :: vs => .write (b.index i) (v.setWidth 32) :: wrBytes b (i + 1) vs

/-- A command mnemonic: `WR CMD, <word>` (R95). -/
def issue (i : Instr) : List Event := wrReg .cmd (encode i)

/-- The events of a `WAIT` (R96) in the schedule in which the engine's turn comes after `k` reads of STATUS: the
reads before it return DONE = 0, the last returns DONE = 1 (log 5). -/
def waitAfter (k : Nat) : List Event := List.replicate k (.read Reg.status.index) ++ [.engine, .read Reg.status.index]

/-- `WR64 COUNTER, v` (R96). -/
def wr64Counter (v : DWord) : List Event := wrReg .counterLo (loHalf v) ++ wrReg .counterHi (hiHalf v)

/-- `WR64 TIME, v` (R96). -/
def wr64Time (v : DWord) : List Event := wrReg .timeLo (loHalf v) ++ wrReg .timeHi (hiHalf v)

/-- `LDTEXT "s"` (R96), for at most 256 characters. -/
def ldText (s : List Byte) : List Event := wrBytes .text 0 s ++ wrReg .textLen (BitVec.ofNat 32 s.length)

/-- `LDKEY h` (R96), for at most 160 bytes. -/
def ldKey (k : List Byte) : List Event := wrBytes .key 0 k ++ wrReg .keyLen (BitVec.ofNat 32 k.length)

/-- `LDCAND "s"` (R96), of any length: CANDLEN takes the length. DESIGN CHOICE (log 13), unsafe: of 2^32 characters
or more, whose number is no 32-bit value (R93), the length modulo 2^32 is written. -/
def ldCand (s : List Byte) : List Event :=
  wrBytes .cand 0 (s.take Config.candMax) ++ wrReg .candLen (BitVec.ofNat 32 s.length)

/-! ## The host at work -/

/-- A host at work: the core, and for each of the host's coming events whether the engine takes a turn just
before it (R93: the completion may fall between any two lines). Past the end of the list the engine takes a turn
before every event, so that a started command completes (70_reset_and_hazards.md R250; log 13). -/
structure Session where
  state : State
  turns : List Bool
deriving DecidableEq, Repr

/-- What an operation of the host returns. -/
inductive HostValue where
  /-- A write, a command or a reset: nothing. -/
  | nothing
  /-- RD and WAIT: a word of the port. -/
  | word (w : Word)
  /-- RD64: a 64-bit register. -/
  | dword (c : DWord)
  /-- RDSTR and RDKEY: a byte sequence. -/
  | bytes (bs : List Byte)
deriving DecidableEq, Repr

/-- The operations of the host's notation (R93, R95, R96). -/
inductive HostOp where
  | wr (a : Index) (v : Word)
  | rd (a : Index)
  | reset
  | command (i : Instr)
  | wait
  | wr64Counter (v : DWord)
  | wr64Time (v : DWord)
  | rd64Ctr
  | ldText (s : List Byte)
  | ldKey (k : List Byte)
  | ldCand (s : List Byte)
  | rdStr (n : Nat)
  | rdKey
deriving DecidableEq, Repr

/-- The core after `n` steps, where none of them stops. -/
def runSteps (n : Nat) (s : State) : Option State :=
  match Host.Core.run Sys2Proof.core n s with
  | .next t => some t
  | .fault _ => none
  | .refused _ => none

/-- One event of the host put first on the agenda, behind a turn of the engine where `turn` says so, and run. -/
def runEvent (turn : Bool) (e : Event) (s : State) : Option State :=
  match turn with
  | true => runSteps 2 { s with agenda := .engine :: e :: s.agenda }
  | false => runSteps 1 { s with agenda := e :: s.agenda }

/-- The host's next event, in the schedule of the session. -/
def Session.access (e : Event) (h : Session) : Option Session :=
  (runEvent (h.turns.headD true) e h.state).map fun t => { state := t, turns := h.turns.tail }

/-- The host's next events, in order. -/
def Session.accesses : List Event → Session → Option Session
  | [], h => some h
  | e :: es, h => (h.access e).bind (Session.accesses es)

/-- `RD` (R93): the word returned. -/
def Session.read (a : Index) (h : Session) : Option (Word × Session) :=
  (h.access (.read a)).bind fun h' => h'.state.readData.map fun w => (w, h')

/-- `RD` of `n` entries of a buffer, from entry `i` on: the byte sequence they hold. -/
def Session.readBytes (b : Buf) : Nat → Nat → Session → Option (List Byte × Session)
  | _, 0, h => some ([], h)
  | i, n + 1, h =>
    (h.read (b.index i)).bind fun p =>
      (Session.readBytes b (i + 1) n p.2).map fun q => (p.1.setWidth 8 :: q.1, q.2)

/-- `WAIT` (R96): read STATUS until the returned word has bit 1 (DONE) = 1, the last word being the value. The
recursion is on the schedule `turns`; past its end the engine has had its turn, so a word with DONE = 0 there is
that of a core with no command in flight, on which `WAIT` reads for ever: no value (log 13). -/
def waitFrom : List Bool → State → Option (Word × Session)
  | [], s => (Session.read Reg.status.index { state := s, turns := [] }).bind fun p =>
    if p.1.getLsbD 1 then some p else none
  | turn :: turns, s => (Session.read Reg.status.index { state := s, turns := turn :: turns }).bind fun p =>
    if p.1.getLsbD 1 then some p else waitFrom turns p.2.state

/-- An operation that only writes: its events, and no value. -/
def Session.writes (es : List Event) (h : Session) : Option (HostValue × Session) :=
  (h.accesses es).map fun h' => (.nothing, h')

/-- `RD64 CTR` (R96): the value `lo + 2^32 * hi`. -/
def Session.rd64Ctr (h : Session) : Option (DWord × Session) :=
  (h.read Reg.ctrLo.index).bind fun lo =>
    (lo.2.read Reg.ctrHi.index).map fun hi => (ofHalves hi.1 lo.1, hi.2)

/-- `RDKEY` (R96): KEYLEN, then that many entries of KEY; none where KEYLEN exceeds 160, for which there is no
`KEY[KEYLEN-1]` (log 13). -/
def Session.rdKey (h : Session) : Option (List Byte × Session) :=
  (h.read Reg.keyLen.index).bind fun p =>
    if p.1.toNat ≤ Config.keyMax then Session.readBytes .key 0 p.1.toNat p.2 else none

/-- One operation performed: its value and the session after it (R93, R95, R96). None where the operation is not
one of the notation (LDTEXT of more than 256 characters, LDKEY of more than 160 bytes, RDSTR of more than 9) and
where WAIT and RDKEY say so. -/
def HostOp.perform (op : HostOp) (h : Session) : Option (HostValue × Session) :=
  match op with
  | .wr a v => h.writes [.write a v]
  | .rd a => (h.read a).map fun p => (.word p.1, p.2)
  | .reset => h.writes [.reset]
  | .command i => h.writes (issue i)
  | .wait => (waitFrom h.turns h.state).map fun p => (.word p.1, p.2)
  | .wr64Counter v => h.writes (Sys2Proof.Machine.wr64Counter v)
  | .wr64Time v => h.writes (Sys2Proof.Machine.wr64Time v)
  | .rd64Ctr => h.rd64Ctr.map fun p => (.dword p.1, p.2)
  | .ldText s => if s.length ≤ Config.textMax then h.writes (Sys2Proof.Machine.ldText s) else none
  | .ldKey k => if k.length ≤ Config.keyMax then h.writes (Sys2Proof.Machine.ldKey k) else none
  | .ldCand s => h.writes (Sys2Proof.Machine.ldCand s)
  | .rdStr n =>
    if n ≤ Config.codeStrMax then (Session.readBytes .codeStr 0 n h).map fun p => (.bytes p.1, p.2) else none
  | .rdKey => h.rdKey.map fun p => (.bytes p.1, p.2)

/-- A program, line after line: the values of its operations, and the session at its end (R93). -/
def runProgram : List HostOp → Session → Option (List HostValue × Session)
  | [], h => some ([], h)
  | op :: ops, h => (op.perform h).bind fun p => (runProgram ops p.2).map fun q => (p.1 :: q.1, q.2)

end Sys2Proof.Machine
end

