-- ==== Sys2Proof/Safety.lean ====
section
/-! DEFINITION. What counts as a safe state (10_state.md R50), and the words in which the statements speak of
what a step leaves unchanged, what a command leaves in its results and what a command reads. -/

namespace Sys2Proof.Machine

/-- The invariants of 10_state.md R50, and the canonical form of the byte memory (log 3). -/
structure State.Inv (s : State) : Prop where
  busy_not_done : ¬(s.busy = true ∧ s.done = true)
  outcome_done : s.matched = true ∨ s.err ≠ 0 → s.done = true
  matched_verify : s.matched = true → s.err = 0 ∧ cmdOp s.cmd = 4
  err_le : s.err.toNat ≤ 5
  err_ctr : s.err ≠ 0 → s.ctr = 0
  err_trunc : s.err ≠ 0 → s.trunc = 0
  err_code : s.err ≠ 0 → s.code = 0
  err_codeStr : s.err ≠ 0 → s.buf .codeStr = rep 0 9
  err_digest : s.err ≠ 0 → s.buf .digest = rep 0 20
  trunc_lt : s.trunc.toNat < 2 ^ 31
  code_lt : s.code.toNat < 10 ^ 9
  mem_wf : s.mem.wf
  mem_locations : s.mem.inByteLocations

/-- Every byte outside the buffers of `bs` reads as before: `bs` are the buffers stored to. -/
def BytesKeptOutside (bs : List Buf) (s t : State) : Prop :=
  ∀ a, (∀ b ∈ bs, b.holds a = false) → t.mem.read a = s.mem.read a

/-- Every register no command writes is as before: CMD, the arguments but KEYLEN, and the environment. -/
structure RegistersKept (s t : State) : Prop where
  cmd : t.cmd = s.cmd
  hash : t.hash = s.hash
  digits : t.digits = s.digits
  stepSecs : t.stepSecs = s.stepSecs
  window : t.window = s.window
  counter : t.counter = s.counter
  time : t.time = s.time
  textLen : t.textLen = s.textLen
  candLen : t.candLen = s.candLen
  agenda : t.agenda = s.agenda
  readData : t.readData = s.readData

/-- The frame of a command that does not decode: KEYLEN too, and every byte but CODE_STR and DIGEST. -/
def FrameKept (s t : State) : Prop :=
  RegistersKept s t ∧ t.keyLen = s.keyLen ∧ BytesKeptOutside [.codeStr, .digest] s t

/-- The frame of a command that decodes: every byte but KEY, CODE_STR and DIGEST. -/
def DecodeFrameKept (s t : State) : Prop :=
  RegistersKept s t ∧ BytesKeptOutside [.key, .codeStr, .digest] s t

/-- The four flags after a completion. -/
def Finished (m : Bool) (e : BitVec 4) (t : State) : Prop :=
  t.busy = false ∧ t.done = true ∧ t.matched = m ∧ t.err = e

/-- TRUNC, CODE, CODE_STR and DIGEST hold zero. -/
def CodeZero (t : State) : Prop :=
  t.trunc = 0 ∧ t.code = 0 ∧ t.buf .codeStr = rep 0 9 ∧ t.buf .digest = rep 0 20

/-- Every result register holds zero. -/
def ResultsZero (t : State) : Prop := t.ctr = 0 ∧ CodeZero t

/-- The results hold the code of `key` and counter `c` at `d` digits, step by step (42_hotp.md R150). -/
def HoldsCode (key : List Byte) (c : DWord) (d : Nat) (t : State) : Prop :=
  t.ctr = c ∧
  t.buf .digest = hmacSha1 key (be64 c) ∧
  t.trunc = dynTrunc (hmacSha1 key (be64 c)) ∧
  t.code.toNat = t.trunc.toNat % 10 ^ d ∧
  t.buf .codeStr = codeStr t.code d ++ rep 0 (9 - d)

/-- KEY holds `k` with a zero tail and KEYLEN its length (40_base32.md R106). -/
def HoldsKey (k : List Byte) (t : State) : Prop :=
  t.keyLen.toNat = k.length ∧ t.buf .key = k ++ rep 0 (160 - k.length)

/-- KEY and KEYLEN are as before. -/
def KeyKept (s t : State) : Prop := t.keyLen = s.keyLen ∧ t.buf .key = s.buf .key

/-- The same result registers, MATCH and ERR in both. -/
def SameResults (s t : State) : Prop :=
  t.ctr = s.ctr ∧ t.trunc = s.trunc ∧ t.code = s.code ∧ t.buf .codeStr = s.buf .codeStr ∧
  t.buf .digest = s.buf .digest ∧ t.matched = s.matched ∧ t.err = s.err

/-- HASH = 0 and DIGITS in 1 to 9 (10_state.md R25, R26). -/
def LegalCode (s : State) : Prop := s.hash = 0 ∧ 1 ≤ s.digits.toNat ∧ s.digits.toNat ≤ 9

/-- The commands that generate or check a code. -/
def codeCommands : List Instr := [.hotp, .hotpT, .totp, .totpT, .verify, .verifyT]

/-- The commands that read TIME and STEP. -/
def timeCommands : List Instr := [.totp, .totpT, .verify, .verifyT]

/-- The commands that decode TEXT (40_base32.md R106). -/
def decodeCommands : List Instr := [.b32dec, .hotpT, .totpT, .verifyT]

/-- Same TEXTLEN and same characters below it. -/
def SameText (s t : State) : Prop :=
  t.textLen = s.textLen ∧
  ∀ i, i < s.textLen.toNat → i < Buf.text.size → t.bufAt .text i = s.bufAt .text i

/-- Same KEYLEN and same key bytes below it. -/
def SameKey (s t : State) : Prop :=
  t.keyLen = s.keyLen ∧
  ∀ i, i < s.keyLen.toNat → i < Buf.key.size → t.bufAt .key i = s.bufAt .key i

/-- Same HASH and DIGITS. -/
def SameCodeConfig (s t : State) : Prop := t.hash = s.hash ∧ t.digits = s.digits

/-- Same TIME and STEP. -/
def SameTime (s t : State) : Prop := t.time = s.time ∧ t.stepSecs = s.stepSecs

/-- Same WINDOW and CANDLEN, and the same CAND where VERIFY reads it: entries 0 to DIGITS - 1, and only when
CANDLEN = DIGITS (10_state.md R38). -/
def SameCandidate (s t : State) : Prop :=
  t.window = s.window ∧ t.candLen = s.candLen ∧
  (s.candLen = s.digits →
    ∀ i, i < s.digits.toNat → i < Buf.cand.size → t.bufAt .cand i = s.bufAt .cand i)

/-- The command takes the secret `k` in this state, within its buffer: the decoded TEXT for KSRC = 1, the key
bytes in KEY for KSRC = 0 (30_encoding.md R82, R84). -/
def TakesSecret (i : Instr) (k : List Byte) (s : State) : Prop :=
  (i.ksrc = true → s.textLen.toNat ≤ 256 ∧ b32Decode (textString s) = k) ∧
  (i.ksrc = false → s.keyLen.toNat ≤ 160 ∧ keyString s = k)

/-- The two states agree on every register the command reads (the table of 30_encoding.md R89). -/
def ReadsSame (i : Instr) (s t : State) : Prop :=
  match i with
  | .b32dec => SameText s t
  | .hotp => SameCodeConfig s t ∧ t.counter = s.counter ∧ SameKey s t
  | .hotpT => SameCodeConfig s t ∧ t.counter = s.counter ∧ SameText s t
  | .totp => SameCodeConfig s t ∧ SameTime s t ∧ SameKey s t
  | .totpT => SameCodeConfig s t ∧ SameTime s t ∧ SameText s t
  | .verify => SameCodeConfig s t ∧ SameTime s t ∧ SameCandidate s t ∧ SameKey s t
  | .verifyT => SameCodeConfig s t ∧ SameTime s t ∧ SameCandidate s t ∧ SameText s t

/-- An access of the host. -/
def Event.isAccess : Event → Bool
  | .read _ => true
  | .write _ _ => true
  | .reset => false
  | .engine => false

/-- Whether a host write to the index stores something while the core is idle, other than CMD: the RW
registers and RW byte locations of 20_memory.md R63, by index (10_state.md R22). -/
def rwScalar (n : Nat) : Bool := decide (0x002 ≤ n ∧ n ≤ 0x00C)

/-- The RW byte locations of 20_memory.md R63, by index (10_state.md R22): CAND, TEXT, KEY. -/
def rwByte (n : Nat) : Bool :=
  decide (0x030 ≤ n ∧ n ≤ 0x03F) || decide (0x100 ≤ n ∧ n ≤ 0x1FF) || decide (0x200 ≤ n ∧ n ≤ 0x29F)

/-- The reserved indexes of 10_state.md R44. -/
def reservedIndex (n : Nat) : Bool :=
  decide (0x00D ≤ n ∧ n ≤ 0x00F) || decide (0x014 ≤ n ∧ n ≤ 0x01F) || decide (0x029 ≤ n ∧ n ≤ 0x02F) ||
  decide (0x054 ≤ n ∧ n ≤ 0x0FF) || decide (0x2A0 ≤ n ∧ n ≤ 0x3FF)

/-- The indexes of the read-only registers of 10_state.md R43. -/
def readOnlyIndex (n : Nat) : Bool :=
  decide (n = 0x001) || decide (0x010 ≤ n ∧ n ≤ 0x013) || decide (0x020 ≤ n ∧ n ≤ 0x028) ||
  decide (0x040 ≤ n ∧ n ≤ 0x053)

/-- Case folding and stripping of trailing padding (40_base32.md R109). -/
def foldCase (ch : Byte) : Byte := if 0x61 ≤ ch.toNat ∧ ch.toNat ≤ 0x7A then ch - 0x20 else ch

/-- `normalize` of 40_base32.md R109. -/
def normalizeText (T : List Byte) : List Byte := (stripPadding T).map foldCase

/-- The number a decimal ASCII string spells, most significant digit first. -/
def decimalValue (S : List Byte) : Nat := S.foldl (fun n ch => 10 * n + (ch.toNat - 0x30)) 0

/-- The 5k-bit number a sequence of 5-bit values spells (40_base32.md R104, closed form). -/
def base32Number (vs : List Nat) : Nat := vs.foldl (fun n v => 32 * n + v) 0

/-- The Base32 alphabet, `A`..`Z` then `2`..`7` (40_base32.md R101). -/
def base32Alphabet : List Byte :=
  ((List.range 26).map fun i => BitVec.ofNat 8 (0x41 + i)) ++ ((List.range 6).map fun i => BitVec.ofNat 8 (0x32 + i))

/-- One bit of `f_t` (41_sha1_hmac.md R123): choose in rounds 0 to 19, majority in rounds 40 to 59, parity in the
others. -/
def roundBit (t : Nat) (x y z : Bool) : Bool :=
  if t < 20 then (if x then y else z)
  else if 40 ≤ t ∧ t < 60 then decide (2 ≤ x.toNat + y.toNat + z.toNat)
  else decide ((x.toNat + y.toNat + z.toNat) % 2 = 1)

/-- `K_t` as a number, one for each 20 rounds (R123). -/
def roundConstant (t : Nat) : Nat := [0x5A827999, 0x6ED9EBA1, 0x8F1BBCDC, 0xCA62C1D6].getD (t / 20) 0

/-- The five chaining words H0 to H4 in order (R124). -/
def chainWords (h : Chain) : List Word := [h.a, h.b, h.c, h.d, h.e]

/-- The candidate string of length `clen` equals the code of some counter `c0 + j` with `-w <= j <= w` and
`c0 + j >= 0` (44_verify.md R181, R182, R183). -/
def MatchesWindow (key : List Byte) (c0 w d : Nat) (cand : List Byte) (clen : Nat) : Prop :=
  clen = d ∧
  ∃ j : Int, -(w : Int) ≤ j ∧ j ≤ w ∧ 0 ≤ (c0 : Int) + j ∧
    hotpStr key (BitVec.ofNat 64 ((c0 : Int) + j).toNat) d = cand.take d

end Sys2Proof.Machine
end

