-- ==== Sys2Proof/Certificates/Slice0/Obligations.lean ====
section
/-! DEFINITION. The statements for the provers. Each says in its docstring which rule of spec/ it formalises. -/

open Sys2Proof Sys2Proof.Machine

/-- 30_encoding.md R83: words of the table, bit by bit. -/
def Obligations.SampleWordsDecode : Prop :=
  decode 0b00000000000000000000000000000001#32 = .command .b32dec ∧
  decode 0b00000000000000000000000000000010#32 = .command .hotp ∧
  decode 0b00000000000000000000000100000011#32 = .command .totpT ∧
  decode 0b00000000000000000000000000000100#32 = .command .verify ∧
  decode 0b00000000000000000000000100000100#32 = .command .verifyT

/-- 30_encoding.md R80, R83, R90: each command has exactly one word. -/
def Obligations.DecodeEncodeAgree : Prop :=
  ∀ (i : Instr) (w : Word), i.wf = true → (decode w = .command i ↔ w = encode i)

/-- 30_encoding.md R90, R83: seven legal words, every other word illegal. -/
def Obligations.LegalWordIffDecodes : Prop :=
  ∀ w : Word,
    (legalWord w = true ↔ ∃ i, decode w = .command i) ∧
    (legalWord w = true ↔ w.toNat ∈ [0x001, 0x002, 0x102, 0x003, 0x103, 0x004, 0x104])

/-- 60_exceptions.md R202. -/
def Obligations.IllegalWordsEndInErrCmd : Prop :=
  ∀ s : State, s.busy = true →
    ∃ t, engineTurn s = .next t ∧
      (t.err = 1 ↔
        s.cmd.toNat / 512 ≠ 0 ∨ s.cmd.toNat / 8 % 32 ≠ 0 ∨ s.cmd.toNat % 8 ∈ [0, 5, 6, 7] ∨
        (s.cmd.toNat % 8 = 1 ∧ s.cmd.toNat / 256 % 2 = 1))

/-- 30_encoding.md R86, R88: completion runs the command in CMD. The agenda, and the engine's turn on an empty one, are the
model's choice, notes/assumptions/1.md; the spec leaves open when the completion comes. -/
def Obligations.StepRunsTheDecodedCommand : Prop :=
  ∀ (i : Instr) (s : State) (rest : List Event), s.busy = true → decode s.cmd = .command i →
    (s.agenda = [] → step s = exec i s) ∧
    (s.agenda = .engine :: rest → step s = exec i { s with agenda := rest })

/-- 30_encoding.md R86 with log 1: the step is enabled exactly when BUSY = 1; the idle turn is the model's. -/
def Obligations.EngineTurnIdleWithoutBusy : Prop :=
  ∀ (s : State) (rest : List Event), s.busy = false →
    (s.agenda = [] → step s = .next s) ∧
    (s.agenda = .engine :: rest → step s = .next { s with agenda := rest })

/-- 20_memory.md R62, with the indexes of 10_state.md R22 and the word of R24. -/
def Obligations.HostReadReturnsTheRegister : Prop :=
  ∀ (s : State) (a : Index) (rest : List Event), s.agenda = .read a :: rest →
    ∃ w : Word, step s = .next { s with agenda := rest, readData := some w } ∧
      (a = 0x000 → w = s.cmd) ∧
      (a = 0x001 → w.toNat = s.busy.toNat + 2 * s.done.toNat + 4 * s.matched.toNat + 16 * s.err.toNat) ∧
      (a = 0x002 → w = s.hash) ∧ (a = 0x003 → w = s.digits) ∧ (a = 0x004 → w = s.stepSecs) ∧
      (a = 0x005 → w = s.window) ∧
      (a = 0x006 → w.toNat = s.counter.toNat % 2 ^ 32) ∧ (a = 0x007 → w.toNat = s.counter.toNat / 2 ^ 32) ∧
      (a = 0x008 → w.toNat = s.time.toNat % 2 ^ 32) ∧ (a = 0x009 → w.toNat = s.time.toNat / 2 ^ 32) ∧
      (a = 0x00A → w = s.textLen) ∧ (a = 0x00B → w = s.keyLen) ∧ (a = 0x00C → w = s.candLen) ∧
      (a = 0x010 → w.toNat = s.ctr.toNat % 2 ^ 32) ∧ (a = 0x011 → w.toNat = s.ctr.toNat / 2 ^ 32) ∧
      (a = 0x012 → w = s.trunc) ∧ (a = 0x013 → w = s.code) ∧
      (byteIndex a.toNat = true → w.toNat = (s.mem.read a.toNat).toNat) ∧
      (reservedIndex a.toNat = true → w = 0)

/-- 20_memory.md R63; the clauses exclude each other by BUSY and by a = 0x000. The agenda and `readData` are logs 1, 2. -/
def Obligations.HostWriteStoresAtItsIndexOnly : Prop :=
  ∀ (s : State) (a : Index) (v : Word) (rest : List Event), s.agenda = .write a v :: rest →
    ∃ t, step s = .next t ∧ t = hostWrite a v { s with agenda := rest } ∧
      (s.busy = true → t = { s with agenda := rest }) ∧
      (s.busy = false → a = 0x000 →
        t = { s with agenda := rest, cmd := v, busy := true, done := false, matched := false, err := 0 }) ∧
      (s.busy = false → a ≠ 0x000 →
        (∀ x : Index, portRead x t =
          if x = a ∧ rwScalar a.toNat = true then v
          else if x = a ∧ rwByte a.toNat = true then v &&& 0xFF
          else portRead x s) ∧
        (∀ n : Nat, t.mem.read n =
          if n = a.toNat ∧ rwByte a.toNat = true then v.setWidth 8 else s.mem.read n) ∧
        t.cmd = s.cmd ∧ t.busy = s.busy ∧ t.done = s.done ∧ t.matched = s.matched ∧ t.err = s.err ∧
        t.agenda = rest ∧ t.readData = s.readData)

/-- 70_reset_and_hazards.md R240. -/
def Obligations.BusyDropsEveryWrite : Prop :=
  ∀ (s : State) (a : Index) (v : Word) (rest : List Event), s.busy = true → s.agenda = .write a v :: rest →
    step s = .next { s with agenda := rest }

/-- 10_state.md R43, R44. -/
def Obligations.ReadOnlyAndReservedIgnoreWrites : Prop :=
  ∀ (s : State) (a : Index) (v : Word) (rest : List Event),
    (s.agenda = .write a v :: rest → readOnlyIndex a.toNat = true ∨ reservedIndex a.toNat = true →
      step s = .next { s with agenda := rest }) ∧
    (reservedIndex a.toNat = true → portRead a s = 0)

/-- 10_state.md R29, R30, R34; 20_memory.md R67; 30_encoding.md R84, and R96 for WR64 and RD64, in every schedule of log 13. -/
def Obligations.HalvesFormOneValue : Prop :=
  ∀ s : State,
    (s.busy = false → ∀ (v w : Word) (rest : List Event),
      (s.agenda = .write 0x006 v :: .write 0x007 w :: rest ∨ s.agenda = .write 0x007 w :: .write 0x006 v :: rest →
        ∃ c : DWord, c.toNat = v.toNat + 2 ^ 32 * w.toNat ∧
          Host.Core.run Sys2Proof.core 2 s = .next { s with agenda := rest, counter := c }) ∧
      (s.agenda = .write 0x008 v :: .write 0x009 w :: rest ∨ s.agenda = .write 0x009 w :: .write 0x008 v :: rest →
        ∃ c : DWord, c.toNat = v.toNat + 2 ^ 32 * w.toNat ∧
          Host.Core.run Sys2Proof.core 2 s = .next { s with agenda := rest, time := c })) ∧
    (portRead 0x006 s).toNat + 2 ^ 32 * (portRead 0x007 s).toNat = s.counter.toNat ∧
    (portRead 0x008 s).toNat + 2 ^ 32 * (portRead 0x009 s).toNat = s.time.toNat ∧
    (portRead 0x010 s).toNat + 2 ^ 32 * (portRead 0x011 s).toNat = s.ctr.toNat ∧
    (s.busy = false → ∀ (c : DWord) (turns : List Bool),
      (HostOp.wr64Counter c).perform ⟨s, turns⟩ = some (.nothing, ⟨{ s with counter := c }, turns.drop 2⟩) ∧
      (HostOp.wr64Time c).perform ⟨s, turns⟩ = some (.nothing, ⟨{ s with time := c }, turns.drop 2⟩) ∧
      HostOp.rd64Ctr.perform ⟨s, turns⟩ =
        some (.dword s.ctr, ⟨{ s with readData := some (portRead 0x011 s) }, turns.drop 2⟩))

/-- 70_reset_and_hazards.md R230. -/
def Obligations.ResetRestoresTheTable : Prop :=
  ∀ (s : State) (rest : List Event), s.agenda = .reset :: rest →
    ∃ t, step s = .next t ∧
      t.cmd = 0 ∧ t.busy = false ∧ t.done = false ∧ t.matched = false ∧ t.err = 0 ∧
      t.hash = 0 ∧ t.digits = 6 ∧ t.stepSecs = 30 ∧ t.window = 1 ∧ t.counter = 0 ∧ t.time = 0 ∧
      t.textLen = 0 ∧ t.keyLen = 0 ∧ t.candLen = 0 ∧ t.ctr = 0 ∧ t.trunc = 0 ∧ t.code = 0 ∧
      ∀ (b : Buf) (i : Nat), i < b.size → t.bufAt b i = 0

/-- 10_state.md R49. -/
def Obligations.ResetStateIsTheTable : Prop :=
  State.reset.cmd = 0 ∧ State.reset.busy = false ∧ State.reset.done = false ∧ State.reset.matched = false ∧
  State.reset.err = 0 ∧ State.reset.hash = 0 ∧ State.reset.digits = 6 ∧ State.reset.stepSecs = 30 ∧
  State.reset.window = 1 ∧ State.reset.counter = 0 ∧ State.reset.time = 0 ∧ State.reset.textLen = 0 ∧
  State.reset.keyLen = 0 ∧ State.reset.candLen = 0 ∧ State.reset.ctr = 0 ∧ State.reset.trunc = 0 ∧
  State.reset.code = 0 ∧ ∀ (b : Buf) (i : Nat), i < b.size → State.reset.bufAt b i = 0

/-- 70_reset_and_hazards.md R231. -/
def Obligations.ResetAbortsTheCommandInFlight : Prop :=
  ∀ (s : State) (rest : List Event), s.busy = true → s.agenda = .reset :: rest →
    ∃ t, step s = .next t ∧ t.busy = false ∧ t.done = false ∧ ResultsZero t ∧ engineTurn t = .next t

/-- 30_encoding.md R85. -/
def Obligations.StartWritesCmdAndFlagsOnly : Prop :=
  ∀ (s : State) (v : Word) (rest : List Event), s.agenda = .write 0x000 v :: rest →
    (s.busy = false → step s = .next
      { s with agenda := rest, cmd := v, busy := true, done := false, matched := false, err := 0 }) ∧
    (s.busy = true → step s = .next { s with agenda := rest })

/-- 30_encoding.md R86; `specExec` is Exec as R88 writes it. -/
def Obligations.EngineStepIsTheSpecsExec : Prop :=
  ∀ s : State, s.busy = true →
    ∃ t, engineTurn s = .next t ∧
      (∀ k, (specExec s).keyWrite = some k → HoldsKey k t) ∧
      ((specExec s).keyWrite = none → KeyKept s t) ∧
      t.ctr = (specExec s).ctr ∧ t.trunc = (specExec s).trunc ∧ t.code = (specExec s).code ∧
      t.buf .codeStr = (specExec s).str ∧ t.buf .digest = (specExec s).digest ∧
      Finished (specExec s).matched (specExec s).err t ∧
      RegistersKept s t ∧ BytesKeptOutside [.key, .codeStr, .digest] s t

/-- 60_exceptions.md R207. -/
def Obligations.CheckDecidesTheErrorCode : Prop :=
  ∀ s : State, s.busy = true →
    ∃ t, engineTurn s = .next t ∧
      t.err.toNat =
        if s.cmd.toNat / 512 ≠ 0 ∨ s.cmd.toNat / 8 % 32 ≠ 0 then 1
        else if s.cmd.toNat % 8 = 0 ∨ s.cmd.toNat % 8 ≥ 5 then 1
        else if s.cmd.toNat % 8 = 1 ∧ s.cmd.toNat / 256 % 2 = 1 then 1
        else if s.cmd.toNat % 8 ≥ 2 ∧ s.hash.toNat ≠ 0 then 2
        else if s.cmd.toNat % 8 ≥ 2 ∧ (s.digits.toNat < 1 ∨ s.digits.toNat > 9) then 3
        else if s.cmd.toNat % 8 ≥ 3 ∧ s.stepSecs.toNat = 0 then 4
        else if (s.cmd.toNat % 8 = 1 ∨ s.cmd.toNat / 256 % 2 = 1) ∧ s.textLen.toNat > 256 then 5
        else if s.cmd.toNat % 8 ≥ 2 ∧ s.cmd.toNat / 256 % 2 = 0 ∧ s.keyLen.toNat > 160 then 5
        else 0

/-- 40_base32.md R107. -/
def Obligations.B32decDecodesTheText : Prop :=
  ∀ s : State, s.textLen.toNat ≤ 256 →
    ∃ t, exec .b32dec s = .next t ∧ HoldsKey (b32Decode (textString s)) t ∧ ResultsZero t ∧
      Finished false 0 t ∧ DecodeFrameKept s t

/-- 42_hotp.md R157. -/
def Obligations.HotpGeneratesTheCode : Prop :=
  ∀ s : State, LegalCode s → s.keyLen.toNat ≤ 160 →
    ∃ t, exec .hotp s = .next t ∧ HoldsCode (keyString s) s.counter s.digits.toNat t ∧
      Finished false 0 t ∧ FrameKept s t

/-- 42_hotp.md R157. -/
def Obligations.HotpTextGeneratesTheCode : Prop :=
  ∀ s : State, LegalCode s → s.textLen.toNat ≤ 256 →
    ∃ t, exec .hotpT s = .next t ∧ HoldsCode (b32Decode (textString s)) s.counter s.digits.toNat t ∧ HoldsKey (b32Decode (textString s)) t ∧
      Finished false 0 t ∧ DecodeFrameKept s t

/-- 43_totp.md R173. -/
def Obligations.TotpGeneratesTheCode : Prop :=
  ∀ s : State, LegalCode s → s.stepSecs ≠ 0 → s.keyLen.toNat ≤ 160 →
    ∃ t, exec .totp s = .next t ∧ HoldsCode (keyString s) (BitVec.ofNat 64 (s.time.toNat / 1000 / s.stepSecs.toNat)) s.digits.toNat t ∧
      Finished false 0 t ∧ FrameKept s t

/-- 43_totp.md R173. -/
def Obligations.TotpTextGeneratesTheCode : Prop :=
  ∀ s : State, LegalCode s → s.stepSecs ≠ 0 → s.textLen.toNat ≤ 256 →
    ∃ t, exec .totpT s = .next t ∧ HoldsCode (b32Decode (textString s)) (BitVec.ofNat 64 (s.time.toNat / 1000 / s.stepSecs.toNat)) s.digits.toNat t ∧ HoldsKey (b32Decode (textString s)) t ∧
      Finished false 0 t ∧ DecodeFrameKept s t

/-- 44_verify.md R181 to R184. -/
def Obligations.VerifyDecidesTheMatch : Prop :=
  ∀ s : State, LegalCode s → s.stepSecs ≠ 0 → s.keyLen.toNat ≤ 160 →
    ∃ (t : State) (m : Bool), exec .verify s = .next t ∧
      t.ctr.toNat = s.time.toNat / 1000 / s.stepSecs.toNat ∧ CodeZero t ∧ Finished m 0 t ∧
      (m = true ↔ MatchesWindow (keyString s) (s.time.toNat / 1000 / s.stepSecs.toNat) s.window.toNat
        s.digits.toNat (s.buf .cand) s.candLen.toNat) ∧ FrameKept s t

/-- 44_verify.md R181 to R184. -/
def Obligations.VerifyTextDecidesTheMatch : Prop :=
  ∀ s : State, LegalCode s → s.stepSecs ≠ 0 → s.textLen.toNat ≤ 256 →
    ∃ (t : State) (m : Bool), exec .verifyT s = .next t ∧
      t.ctr.toNat = s.time.toNat / 1000 / s.stepSecs.toNat ∧ CodeZero t ∧ HoldsKey (b32Decode (textString s)) t ∧ Finished m 0 t ∧
      (m = true ↔ MatchesWindow (b32Decode (textString s)) (s.time.toNat / 1000 / s.stepSecs.toNat) s.window.toNat
        s.digits.toNat (s.buf .cand) s.candLen.toNat) ∧ DecodeFrameKept s t

/-- 60_exceptions.md R203. -/
def Obligations.HashErrorIffNotSha1 : Prop :=
  ∀ s : State,
    (∀ i ∈ codeCommands, ∃ t, exec i s = .next t ∧ (t.err = 2 ↔ s.hash ≠ 0)) ∧
    ∃ t, exec .b32dec s = .next t ∧ t.err ≠ 2

/-- 60_exceptions.md R204; HASH has priority (R207). -/
def Obligations.DigitsErrorIffOutOfRange : Prop :=
  ∀ s : State,
    (s.hash = 0 → ∀ i ∈ codeCommands, ∃ t, exec i s = .next t ∧
      (t.err = 3 ↔ ¬(1 ≤ s.digits.toNat ∧ s.digits.toNat ≤ 9))) ∧
    ∃ t, exec .b32dec s = .next t ∧ t.err ≠ 3

/-- 60_exceptions.md R205; HASH and DIGITS have priority (R207). -/
def Obligations.StepErrorIffZero : Prop :=
  ∀ s : State,
    (LegalCode s → ∀ i ∈ timeCommands, ∃ t, exec i s = .next t ∧ (t.err = 4 ↔ s.stepSecs = 0)) ∧
    (∀ i ∈ [Instr.b32dec, .hotp, .hotpT], ∃ t, exec i s = .next t ∧ t.err ≠ 4)

/-- 60_exceptions.md R206; the other causes have priority (R207). -/
def Obligations.LengthErrorIffBeyondBuffer : Prop :=
  ∀ s : State,
    (∃ t, exec .b32dec s = .next t ∧ (t.err = 5 ↔ s.textLen.toNat > 256)) ∧
    (LegalCode s → ∃ t, exec .hotpT s = .next t ∧ (t.err = 5 ↔ s.textLen.toNat > 256)) ∧
    (LegalCode s → ∃ t, exec .hotp s = .next t ∧ (t.err = 5 ↔ s.keyLen.toNat > 160)) ∧
    (LegalCode s → s.stepSecs ≠ 0 → ∀ i ∈ [Instr.totpT, .verifyT], ∃ t, exec i s = .next t ∧
      (t.err = 5 ↔ s.textLen.toNat > 256)) ∧
    (LegalCode s → s.stepSecs ≠ 0 → ∀ i ∈ [Instr.totp, .verify], ∃ t, exec i s = .next t ∧
      (t.err = 5 ↔ s.keyLen.toNat > 160))

/-- 60_exceptions.md R208; `check` is R207's Check. -/
def Obligations.ErrorOutcomeWritesZeros : Prop :=
  ∀ s : State, s.busy = true → check s ≠ 0 →
    ∃ t, engineTurn s = .next t ∧ ResultsZero t ∧ Finished false (check s) t ∧ KeyKept s t ∧ FrameKept s t

/-- 40_base32.md R106. -/
def Obligations.DecodeResultGoesToKey : Prop :=
  ∀ s : State, ∀ i ∈ decodeCommands, ∃ t, exec i s = .next t ∧
    (t.err = 0 → HoldsKey (b32Decode (textString s)) t) ∧ (t.err ≠ 0 → KeyKept s t) ∧
    t.textLen = s.textLen ∧ t.buf .text = s.buf .text

/-- 70_reset_and_hazards.md R244. -/
def Obligations.ArgumentsPersist : Prop :=
  ∀ s : State, ∃ t, engineTurn s = .next t ∧
    t.hash = s.hash ∧ t.digits = s.digits ∧ t.stepSecs = s.stepSecs ∧ t.window = s.window ∧
    t.counter = s.counter ∧ t.time = s.time ∧ t.textLen = s.textLen ∧ t.candLen = s.candLen ∧
    t.buf .text = s.buf .text ∧ t.buf .cand = s.buf .cand

/-- 44_verify.md R185. -/
def Obligations.VerifyLeavesNoCode : Prop :=
  ∀ s : State, ∀ i ∈ [Instr.verify, .verifyT],
    (∃ t, exec i s = .next t ∧ CodeZero t ∧
      (t.err = 0 → t.ctr.toNat = s.time.toNat / 1000 / s.stepSecs.toNat)) ∧
    ∀ (w l : Word) (cand : List Byte), cand.length = 16 →
      ∃ t u, exec i s = .next t ∧
        exec i { s with window := w, candLen := l, mem := s.mem.writeBytes Buf.cand.base cand } = .next u ∧
        CodeZero u ∧ u = { t with window := w, candLen := l, matched := u.matched, mem := u.mem } ∧
        ∀ a, Buf.cand.holds a = false → u.mem.read a = t.mem.read a

/-- 44_verify.md R186, for both key sources. -/
def Obligations.VerifyAcceptsTheCurrentCode : Prop :=
  ∀ g ∈ [Instr.totp, .totpT], ∀ v ∈ [Instr.verify, .verifyT], ∀ (s t u : State) (k : List Byte),
    exec g s = .next t → t.err = 0 → TakesSecret g k s → TakesSecret v k u →
    SameCodeConfig t u → SameTime t u → u.candLen = u.digits →
    (∀ i, i < u.digits.toNat → u.bufAt .cand i = t.bufAt .codeStr i) →
    ∃ r, exec v u = .next r ∧ r.matched = true ∧ r.err = 0

/-- 44_verify.md R187, first half, for any step and window and both key sources. -/
def Obligations.VerifyAcceptsCodesWithinTheWindow : Prop :=
  ∀ g ∈ [Instr.totp, .totpT], ∀ v ∈ [Instr.verify, .verifyT], ∀ (s t u : State) (k : List Byte) (n : Nat),
    exec g s = .next t → t.err = 0 → TakesSecret g k s → TakesSecret v k u →
    SameCodeConfig t u → u.stepSecs = t.stepSecs → u.candLen = u.digits →
    (∀ i, i < u.digits.toNat → u.bufAt .cand i = t.bufAt .codeStr i) →
    n ≤ u.window.toNat →
    u.time.toNat = t.time.toNat + 1000 * t.stepSecs.toNat * n ∨
      u.time.toNat + 1000 * t.stepSecs.toNat * n = t.time.toNat →
    ∃ r, exec v u = .next r ∧ r.matched = true ∧ r.err = 0

/-- 30_encoding.md R82; 92_eei_decisions.md D16. -/
def Obligations.TextKeyCommandIsDecodeThenByteKeyCommand : Prop :=
  ∀ s : State, s.mem.wf →
    ∀ p ∈ [(Instr.hotpT, Instr.hotp), (.totpT, .totp), (.verifyT, .verify)],
      checkArgs p.1.op.toNat true s = 0 →
      ∃ m t, exec .b32dec s = .next m ∧ exec p.2 m = .next t ∧ exec p.1 s = .next t

/-- 43_totp.md R173: delegate to HOTP with this counter. -/
def Obligations.TotpIsHotpOnTheDerivedCounter : Prop :=
  ∀ s : State, s.stepSecs ≠ 0 →
    ∀ p ∈ [(Instr.totp, Instr.hotp), (.totpT, .hotpT)],
      ∃ t, exec p.1 s = .next t ∧ t.counter = s.counter ∧
        exec p.2 { s with counter := timeToCounter s.time s.stepSecs } =
          .next { t with counter := timeToCounter s.time s.stepSecs }

/-- 30_encoding.md R89, the column reads; 10_state.md R38, R40, R41 for the entries not read. -/
def Obligations.CommandReadsOnlyItsRow : Prop :=
  ∀ (i : Instr) (s s' : State), ReadsSame i s s' →
    ∃ t t', exec i s = .next t ∧ exec i s' = .next t' ∧ SameResults t t' ∧
      (i ∈ decodeCommands → t.err = 0 → KeyKept t t')

/-- 42_hotp.md R155, R157; 44_verify.md R189; 60_exceptions.md R213. -/
def Obligations.RepeatingACommandRepeatsItsOutcome : Prop :=
  ∀ (i : Instr) (s : State), ∃ t u, exec i s = .next t ∧ exec i t = .next u ∧
    SameResults t u ∧ KeyKept t u ∧ RegistersKept t u

/-- 70_reset_and_hazards.md R240, R250: a claim holds for every placement of the completion. -/
def Obligations.EveryPlacementGivesTheSameOutcome : Prop :=
  ∀ (s : State) (pre rest : List Event), s.busy = true → (∀ e ∈ pre, e.isAccess = true) →
    ∃ t u, engineTurn { s with agenda := rest } = .next t ∧
      Host.Core.run Sys2Proof.core (pre.length + 1) { s with agenda := pre ++ .engine :: rest } = .next u ∧
      u = { t with readData := u.readData }

/-- 70_reset_and_hazards.md R250, weak fairness of the engine; log 1. -/
def Obligations.CompletionComesWithinTheAgenda : Prop :=
  ∀ s : State, s.busy = true → Event.reset ∉ s.agenda →
    ∃ (k : Nat) (t : State), k ≤ s.agenda.length + 1 ∧ Host.Core.run Sys2Proof.core k s = .next t ∧
      t.busy = false ∧ t.done = true

/-- 30_encoding.md R96; 70_reset_and_hazards.md R241, R250. The agenda, the schedule and the
CANDLEN of an LDCAND of 2^32 characters or more are the model's (logs 1, 5, 13). -/
def Obligations.HostOperationsHaveTheirValues : Prop :=
  ∀ s : State,
    (s.Inv → s.busy = true → ∀ k : Nat,
      (∀ (rest : List Event) (j : Nat), 1 ≤ j → j ≤ k →
        ∃ u, Host.Core.run Sys2Proof.core j { s with agenda := waitAfter k ++ rest } = .next u ∧ u.readData = some 1) ∧
      ∃ (t : State) (w : Word),
        engineTurn s = .next { t with readData := s.readData } ∧ t.readData = some w ∧
        w = portRead 0x001 t ∧ w.getLsbD 0 = false ∧ w.getLsbD 1 = true ∧
        (∀ rest : List Event, Host.Core.run Sys2Proof.core (k + 2) { s with agenda := waitAfter k ++ rest } =
          .next { t with agenda := rest }) ∧
        ∀ turns : List Bool, HostOp.wait.perform ⟨s, List.replicate k false ++ true :: turns⟩ =
          some (.word w, ⟨t, turns⟩)) ∧
    (s.busy = false → ∀ turns : List Bool,
      (∀ n, n ≤ 9 → ∃ r, (HostOp.rdStr n).perform ⟨s, turns⟩ =
        some (.bytes ((s.buf .codeStr).take n), ⟨{ s with readData := r }, turns.drop n⟩)) ∧
      (s.keyLen.toNat ≤ 160 → ∃ r, HostOp.rdKey.perform ⟨s, turns⟩ =
        some (.bytes (keyString s), ⟨{ s with readData := r }, turns.drop (s.keyLen.toNat + 1)⟩)) ∧
      (∀ T : List Byte, T.length ≤ 256 → (HostOp.ldText T).perform ⟨s, turns⟩ =
        some (.nothing, ⟨{ s with mem := s.mem.writeBytes 0x100 T, textLen := BitVec.ofNat 32 T.length },
          turns.drop (T.length + 1)⟩)) ∧
      (∀ k : List Byte, k.length ≤ 160 → (HostOp.ldKey k).perform ⟨s, turns⟩ =
        some (.nothing, ⟨{ s with mem := s.mem.writeBytes 0x200 k, keyLen := BitVec.ofNat 32 k.length },
          turns.drop (k.length + 1)⟩)) ∧
      ∀ c : List Byte, (HostOp.ldCand c).perform ⟨s, turns⟩ =
        some (.nothing, ⟨{ s with mem := s.mem.writeBytes 0x030 (c.take 16), candLen := BitVec.ofNat 32 c.length },
          turns.drop (min c.length 16 + 1)⟩))

/-- 20_memory.md R71 (c); 70_reset_and_hazards.md R253, after completion. -/
def Obligations.ResultsStableUntilNextStart : Prop :=
  ∀ (s : State) (e : Event) (rest : List Event), s.busy = false → s.agenda = e :: rest →
    e ≠ .reset → (∀ v, e ≠ .write 0x000 v) →
    ∃ t, step s = .next t ∧ SameResults s t ∧ t.busy = false ∧ t.done = s.done ∧ t.cmd = s.cmd

/-- 10_state.md R50; the memory clauses are log 3's. -/
def Obligations.StepKeepsTheInvariants : Prop :=
  ∀ s t : State, s.Inv → step s = .next t → t.Inv

/-- 10_state.md R49, R50; the memory clauses of `State.Inv` are notes/assumptions/3.md's. -/
def Obligations.ResetSatisfiesTheInvariants : Prop :=
  State.reset.Inv

/-- 10_state.md R50: in every reachable state after reset. A run past the agenda is log 1's (notes/assumptions/1.md), the
memory clauses of `State.Inv` are log 3's (notes/assumptions/3.md). -/
def Obligations.ReachableStatesAreSafe : Prop :=
  ∀ (l : List Event) (n : Nat), ∃ t,
    Host.Core.run Sys2Proof.core n { State.reset with agenda := l } = .next t ∧ t.Inv

/-- 60_exceptions.md R200, R211; 20_memory.md R61. -/
def Obligations.EveryStepHasANextState : Prop :=
  ∀ s : State, ∃ t, step s = .next t

/-- 40_base32.md R101, R102. -/
def Obligations.CharValIsThePlaceInTheAlphabet : Prop :=
  ∀ ch : Byte, charVal ch = base32Alphabet.idxOf? (foldCase ch)

/-- 40_base32.md R104, the loop meets the closed form. -/
def Obligations.Base32ClosedForm : Prop :=
  ∀ T : List Byte,
    (b32Decode T).length = 5 * (T.filterMap charVal).length / 8 ∧
    ∀ q, q < 5 * (T.filterMap charVal).length / 8 →
      ((b32Decode T).getD q 0).toNat =
        base32Number (T.filterMap charVal) / 2 ^ (5 * (T.filterMap charVal).length - 8 * q - 8) % 256

/-- 40_base32.md R105 (a) to (f). -/
def Obligations.Base32Consequences : Prop :=
  (∀ T, b32Decode T = b32Loop T 0 0) ∧
  (∀ T n, b32Decode (T ++ rep 0x3D n) = b32Decode T) ∧
  (∀ T, (b32Decode T).length = 5 * (T.filterMap charVal).length / 8) ∧
  b32Decode [0x4D, 0x5A] = [0x66] ∧ b32Decode [0x4D, 0x59] = [0x66] ∧
  (∀ T, T.length ≤ 256 → (b32Decode T).length ≤ 160) ∧
  (∀ T, (∀ ch ∈ T, charVal ch = none) → b32Decode T = [])

/-- 40_base32.md R109. -/
def Obligations.DecodeIgnoresCaseAndPadding : Prop :=
  ∀ T : List Byte, b32Decode T = b32Decode (normalizeText T)

/-- 41_sha1_hmac.md R121, and its be64 by bytes (00_scope.md R12, 42_hotp.md R151, 20_memory.md R64 (a)). -/
def Obligations.PadEndsInTheBitLength : Prop :=
  (∀ M : List Byte, M.length < 2 ^ 61 →
    ∃ z : Nat, sha1Pad M = M ++ [0x80] ++ rep 0 z ++ be64 (BitVec.ofNat 64 (8 * M.length)) ∧
      (BitVec.ofNat 64 (8 * M.length)).toNat = 8 * M.length ∧
      (M.length + 1 + z) % 64 = 56 ∧ (∀ z', (M.length + 1 + z') % 64 = 56 → z ≤ z') ∧
      (z : Int) = (55 - (M.length : Int)) % 64 ∧
      (sha1Pad M).length = 64 * ((M.length + 8) / 64 + 1)) ∧
  ∀ c : DWord, (be64 c).length = 8 ∧
    ∀ i, i < 8 → ((be64 c).getD i 0).toNat = c.toNat / 256 ^ (7 - i) % 256

/-- 41_sha1_hmac.md R122 to R126, by bits and by sums modulo 2^32; `Pad` is the statement PadEndsInTheBitLength. -/
def Obligations.Sha1FollowsItsRecurrences : Prop :=
  (∀ (H : Chain) (block : List Byte), block.length = 64 →
    ∃ W f a b c d e : Nat → Word,
      (∀ t, t < 16 → (W t).toNat =
        (block.getD (4 * t) 0).toNat * 2 ^ 24 + (block.getD (4 * t + 1) 0).toNat * 2 ^ 16 +
        (block.getD (4 * t + 2) 0).toNat * 2 ^ 8 + (block.getD (4 * t + 3) 0).toNat) ∧
      (∀ t, 16 ≤ t → t < 80 → W t = (W (t - 3) ^^^ W (t - 8) ^^^ W (t - 14) ^^^ W (t - 16)).rotateLeft 1) ∧
      (a 0 = H.a ∧ b 0 = H.b ∧ c 0 = H.c ∧ d 0 = H.d ∧ e 0 = H.e) ∧
      (∀ t, t < 80 →
        (∀ i, i < 32 →
          (f t).getLsbD i = roundBit t ((b t).getLsbD i) ((c t).getLsbD i) ((d t).getLsbD i)) ∧
        (a (t + 1)).toNat =
          (((a t).rotateLeft 5).toNat + (f t).toNat + (e t).toNat + roundConstant t + (W t).toNat) % 2 ^ 32 ∧
        b (t + 1) = a t ∧ c (t + 1) = (b t).rotateLeft 30 ∧ d (t + 1) = c t ∧ e (t + 1) = d t) ∧
      (compress H block).a.toNat = (H.a.toNat + (a 80).toNat) % 2 ^ 32 ∧
      (compress H block).b.toNat = (H.b.toNat + (b 80).toNat) % 2 ^ 32 ∧
      (compress H block).c.toNat = (H.c.toNat + (c 80).toNat) % 2 ^ 32 ∧
      (compress H block).d.toNat = (H.d.toNat + (d 80).toNat) % 2 ^ 32 ∧
      (compress H block).e.toNat = (H.e.toNat + (e 80).toNat) % 2 ^ 32) ∧
  ∀ M : List Byte, M.length < 2 ^ 61 →
    ∃ H : Nat → Chain,
      chainWords (H 0) = [0x67452301, 0xEFCDAB89, 0x98BADCFE, 0x10325476, 0xC3D2E1F0] ∧
      (∀ n, n < (M.length + 8) / 64 + 1 → H (n + 1) = compress (H n) (((sha1Pad M).drop (64 * n)).take 64)) ∧
      (sha1 M).length = 20 ∧
      ∀ j, j < 20 → ((sha1 M).getD j 0).toNat =
        ((chainWords (H ((M.length + 8) / 64 + 1))).getD (j / 4) 0).toNat / 256 ^ (3 - j % 4) % 256

/-- 41_sha1_hmac.md R130, R131 by bytes, and R132 (a) to (e). -/
def Obligations.HmacKeyCases : Prop :=
  (∀ key msg : List Byte, ∃ k inner outer : List Byte,
    (key.length > 64 → k = sha1 key ∧ k.length = 20) ∧ (key.length ≤ 64 → k = key) ∧
    inner.length = 64 ∧ outer.length = 64 ∧
    (∀ i, i < 64 → inner.getD i 0 = k.getD i 0 ^^^ 0x36 ∧ outer.getD i 0 = k.getD i 0 ^^^ 0x5C) ∧
    hmacSha1 key msg = sha1 (outer ++ sha1 (inner ++ msg)) ∧ (hmacSha1 key msg).length = 20) ∧
  hmacKeyBlock [] = rep 0 64 ∧
  (∀ key, 1 ≤ key.length → key.length ≤ 63 → hmacKeyBlock key = key ++ rep 0 (64 - key.length)) ∧
  (∀ key, key.length = 64 → hmacKeyBlock key = key) ∧
  (∀ key, 65 ≤ key.length → (sha1 key).length = 20 ∧ hmacKeyBlock key = sha1 key ++ rep 0 44) ∧
  (∀ key msg, key.length < 64 → hmacSha1 key msg = hmacSha1 (key ++ [0]) msg)

/-- 42_hotp.md R152. -/
def Obligations.DynTruncReadsFourBytes : Prop :=
  ∀ D : List Byte, D.length = 20 →
    (D.getD 19 0).toNat % 16 + 3 ≤ 18 ∧
    (dynTrunc D).toNat =
      (D.getD ((D.getD 19 0).toNat % 16) 0).toNat % 128 * 2 ^ 24 +
      (D.getD ((D.getD 19 0).toNat % 16 + 1) 0).toNat * 2 ^ 16 +
      (D.getD ((D.getD 19 0).toNat % 16 + 2) 0).toNat * 2 ^ 8 +
      (D.getD ((D.getD 19 0).toNat % 16 + 3) 0).toNat ∧
    (dynTrunc D).toNat < 2 ^ 31

/-- 42_hotp.md R153. -/
def Obligations.CodeValueIsTheRemainder : Prop :=
  ∀ (b : Word) (d : Nat), b.toNat < 2 ^ 31 → 1 ≤ d → d ≤ 9 →
    (codeValue b d).toNat = b.toNat % 10 ^ d ∧ (codeValue b d).toNat < 10 ^ d ∧ 10 ^ d < 2 ^ 30 ∧
    b.toNat / 10 ^ 9 ≤ 2

/-- 42_hotp.md R154; 43_totp.md R175. -/
def Obligations.CodeStringSpellsTheCode : Prop :=
  ∀ (v : Word) (d : Nat), 1 ≤ d → d ≤ 9 → v.toNat < 10 ^ d →
    (codeStr v d).length = d ∧
    (∀ ch ∈ codeStr v d, 0x30 ≤ ch.toNat ∧ ch.toNat ≤ 0x39) ∧
    (∀ i, i < d → ((codeStr v d).getD i 0).toNat = 0x30 + v.toNat / 10 ^ (d - 1 - i) % 10) ∧
    decimalValue (codeStr v d) = v.toNat

/-- 43_totp.md R171, R172. -/
def Obligations.TimeToCounterForms : Prop :=
  ∀ (t : DWord) (s : Word), s ≠ 0 →
    (timeToCounter t s).toNat = t.toNat / 1000 / s.toNat ∧
    (timeToCounter t s).toNat ≤ 18446744073709551 ∧ (timeToCounter t s).toNat < 2 ^ 55 ∧
    (timeToCounter t s).toNat = t.toNat / (1000 * s.toNat) ∧
    (∀ c : Nat, (timeToCounter t s).toNat = c ↔
      1000 * s.toNat * c ≤ t.toNat ∧ t.toNat < 1000 * s.toNat * (c + 1)) ∧
    (∀ u : DWord, u.toNat = t.toNat + 1000 * s.toNat →
      (timeToCounter u s).toNat = (timeToCounter t s).toNat + 1)

/-- 44_verify.md R181; Int division by a positive divisor is the floor. -/
def Obligations.WindowCandidatesAreTheCountersInRange : Prop :=
  (∀ c0 w : Nat, c0 ≤ 18446744073709551 → w < 2 ^ 32 →
    (∀ c : Nat, (firstCandidate c0 w ≤ c ∧ c < firstCandidate c0 w + candidateCount c0 w) ↔
      ∃ j : Int, -(w : Int) ≤ j ∧ j ≤ w ∧ (c : Int) = c0 + j) ∧
    candidateCount c0 w = min w c0 + w + 1 ∧ c0 + w < 2 ^ 56) ∧
  (∀ now j s : Int, 1 ≤ s → (now + j * 1000 * s) / 1000 / s = now / 1000 / s + j)

/-- 44_verify.md R183. -/
def Obligations.VerifyMatchIsTheWindowExistential : Prop :=
  ∀ (key : List Byte) (c0 : DWord) (w : Word) (d : Nat) (cand : List Byte) (clen : Word),
    c0.toNat < 2 ^ 55 → 1 ≤ d → d ≤ 9 → cand.length = 16 →
    (verifyMatch key c0 w d cand clen = true ↔
      MatchesWindow key c0.toNat w.toNat d cand clen.toNat)

/-- 44_verify.md R182, consequences; 60_exceptions.md R209 (d). -/
def Obligations.WrongCandidateNeverMatches : Prop :=
  ∀ s : State, LegalCode s → s.stepSecs ≠ 0 →
    (s.candLen ≠ s.digits ∨
      ∃ i, i < s.digits.toNat ∧ ¬(0x30 ≤ (s.bufAt .cand i).toNat ∧ (s.bufAt .cand i).toNat ≤ 0x39)) →
    (s.keyLen.toNat ≤ 160 → ∃ t, exec .verify s = .next t ∧ t.matched = false ∧ t.err = 0) ∧
    (s.textLen.toNat ≤ 256 → ∃ t, exec .verifyT s = .next t ∧ t.matched = false ∧ t.err = 0)
end

