-- ==== Sys2Proof/Laws/Decode.lean ====
section
/-! SUPPORT. The fields of a command word as numbers, and the decoder over those numbers. -/

namespace Sys2Proof

/-- The four fields of 30_encoding.md R80, by arithmetic on the word. -/
theorem cmd_fields (w : Word) :
    (cmdOp w).toNat = w.toNat % 8 ∧ (cmdRsv0 w).toNat = w.toNat / 8 % 32 ∧
      cmdKsrc w = decide (w.toNat / 256 % 2 = 1) ∧ (cmdRsv1 w).toNat = w.toNat / 512 := by
  have := w.isLt
  refine ⟨by simp [cmdOp], by simp [cmdRsv0, Nat.shiftRight_eq_div_pow],
    by simp [cmdKsrc, BitVec.getLsbD, Nat.testBit_eq_decide_div_mod_eq], ?_⟩
  simp [cmdRsv1, Nat.shiftRight_eq_div_pow]
  omega

theorem bitVec_ne_zero_iff {n : Nat} (x : BitVec n) : x ≠ 0 ↔ x.toNat ≠ 0 :=
  not_iff_not.mpr ⟨fun h => by simp [h], fun h => BitVec.eq_of_toNat_eq (by simpa using h)⟩

/-- When a reserved bit is set. -/
theorem reserved_iff (w : Word) :
    (cmdRsv1 w ≠ 0 ∨ cmdRsv0 w ≠ 0) ↔ (w.toNat / 512 ≠ 0 ∨ w.toNat / 8 % 32 ≠ 0) := by
  obtain ⟨-, h2, -, h4⟩ := cmd_fields w
  rw [← h2, ← h4, bitVec_ne_zero_iff, bitVec_ne_zero_iff]

/-- The decoder over the fields as numbers. -/
theorem decode_eq (w : Word) :
    decode w = if w.toNat / 512 ≠ 0 ∨ w.toNat / 8 % 32 ≠ 0 then .illegal .reservedBits
      else decodeOp (w.toNat % 8) (decide (w.toNat / 256 % 2 = 1)) := by
  obtain ⟨h1, -, h3, -⟩ := cmd_fields w
  by_cases h : cmdRsv1 w ≠ 0 ∨ cmdRsv0 w ≠ 0
  · rw [decode, if_pos h, if_pos ((reserved_iff w).mp h)]
  · rw [decode, if_neg h, if_neg (fun hh => h ((reserved_iff w).mpr hh)), h1, h3]

end Sys2Proof
end

