-- ==== Sys2Proof/Laws/Memory.lean ====
section
/-! SUPPORT. The laws of the byte memory: a read after a write, every other place left alone, and the
canonical form kept. -/

namespace Sys2Proof.Machine

theorem Memory.read_erase_same (m : Memory) (a : Nat) : Memory.read (m.erase a) a = 0 := by
  induction m with
  | nil => rfl
  | cons c m ih =>
    by_cases h : c.1 = a
    · simpa [Memory.erase, h] using ih
    · simpa [Memory.erase, Memory.read, h] using ih

theorem Memory.read_erase_other (m : Memory) {a x : Nat} (hx : x ≠ a) :
    Memory.read (m.erase a) x = m.read x := by
  induction m with
  | nil => rfl
  | cons c m ih =>
    by_cases h : c.1 = a
    · have : c.1 ≠ x := by omega
      simpa [Memory.erase, Memory.read, h, Ne.symm hx] using ih
    · by_cases h' : c.1 = x
      · simp [Memory.erase, Memory.read, h', hx]
      · simpa [Memory.erase, Memory.read, h, h'] using ih

theorem Memory.read_insert_other (m : Memory) {a x : Nat} (v : Byte) (hx : x ≠ a) :
    Memory.read (m.insert a v) x = m.read x := by
  induction m with
  | nil => simp [Memory.insert, Memory.read, Ne.symm hx]
  | cons c m ih =>
    by_cases h : a < c.1
    · simp [Memory.insert, Memory.read, h, Ne.symm hx]
    · simp [Memory.insert, Memory.read, h, ih]

theorem Memory.read_insert_same (m : Memory) (a : Nat) (v : Byte) (h : ∀ c ∈ m, c.1 ≠ a) :
    Memory.read (m.insert a v) a = v := by
  induction m with
  | nil => simp [Memory.insert, Memory.read]
  | cons c m ih =>
    have hc : c.1 ≠ a := h c (by simp)
    by_cases hl : a < c.1
    · simp [Memory.insert, Memory.read, hl]
    · simpa [Memory.insert, Memory.read, hl, hc] using ih fun d hd => h d (by simp [hd])

theorem Memory.ne_of_mem_erase {m : Memory} {a : Nat} : ∀ c ∈ m.erase a, c.1 ≠ a := by
  intro c hc
  simpa using (List.mem_filter.mp hc).2

theorem Memory.write_zero (m : Memory) (a : Nat) : m.write a 0 = m.erase a := if_pos rfl

theorem Memory.write_ne_zero (m : Memory) (a : Nat) {v : Byte} (h : v ≠ 0) :
    m.write a v = Memory.insert (m.erase a) a v := if_neg h

/-- A read after a write to the same place gives the byte written. -/
@[simp] theorem Memory.read_write_same (m : Memory) (a : Nat) (v : Byte) : (m.write a v).read a = v := by
  by_cases h : v = 0
  · rw [h, Memory.write_zero, Memory.read_erase_same]
  · rw [Memory.write_ne_zero _ _ h, Memory.read_insert_same _ _ _ Memory.ne_of_mem_erase]

/-- A write leaves every other place alone. -/
theorem Memory.read_write_other (m : Memory) {a x : Nat} (v : Byte) (hx : x ≠ a) :
    (m.write a v).read x = m.read x := by
  by_cases h : v = 0
  · rw [h, Memory.write_zero, Memory.read_erase_other _ hx]
  · rw [Memory.write_ne_zero _ _ h, Memory.read_insert_other _ _ hx, Memory.read_erase_other _ hx]

theorem Memory.mem_insert {m : Memory} {a : Nat} {v : Byte} {c : Host.Cell} :
    c ∈ m.insert a v ↔ c = (a, v) ∨ c ∈ m := by
  induction m with
  | nil => simp [Memory.insert]
  | cons d m ih =>
    by_cases h : a < d.1
    · simp [Memory.insert, h]
    · simp [Memory.insert, h, ih, or_left_comm]

theorem Memory.wf_erase {m : Memory} (h : m.wf) (a : Nat) : Memory.wf (m.erase a) :=
  ⟨h.1.filter _, fun c hc => h.2 c (List.mem_filter.mp hc).1⟩

theorem Memory.pairwise_insert {m : Memory} (h : m.Pairwise (fun c d => c.1 < d.1)) (a : Nat) (v : Byte)
    (hne : ∀ c ∈ m, c.1 ≠ a) : (m.insert a v).Pairwise (fun c d => c.1 < d.1) := by
  induction m with
  | nil => simp [Memory.insert]
  | cons c m ih =>
    have hp := List.pairwise_cons.mp h
    have hc : c.1 ≠ a := hne c (by simp)
    by_cases hl : a < c.1
    · have hall : ∀ d ∈ c :: m, a < d.1 := by
        intro d hd
        rcases List.mem_cons.mp hd with rfl | hd
        · exact hl
        · exact Nat.lt_trans hl (hp.1 d hd)
      simp only [Memory.insert, hl, if_true]
      exact List.Pairwise.cons hall h
    · have ih := ih hp.2 fun d hd => hne d (by simp [hd])
      simp only [Memory.insert, hl, if_false]
      refine List.pairwise_cons.mpr ⟨?_, ih⟩
      intro d hd
      rcases Memory.mem_insert.mp hd with rfl | hd
      · show c.1 < a
        omega
      · exact hp.1 d hd

/-- A write keeps the canonical form. -/
theorem Memory.wf_write {m : Memory} (h : m.wf) (a : Nat) (v : Byte) : Memory.wf (m.write a v) := by
  by_cases hv : v = 0
  · rw [hv, Memory.write_zero]
    exact Memory.wf_erase h a
  · have he := Memory.wf_erase h a
    rw [Memory.write_ne_zero _ _ hv]
    refine ⟨Memory.pairwise_insert he.1 a v Memory.ne_of_mem_erase, fun c hc => ?_⟩
    rcases Memory.mem_insert.mp hc with rfl | hc
    · exact hv
    · exact he.2 c hc

/-- A write at a byte location keeps the entries at byte locations. -/
theorem Memory.locations_write {m : Memory} (h : m.inByteLocations) {a : Nat} (ha : byteIndex a = true)
    (v : Byte) : Memory.inByteLocations (m.write a v) := by
  have he : ∀ c ∈ m.erase a, byteIndex c.1 = true := fun c hc => h c (List.mem_filter.mp hc).1
  intro c hc
  by_cases hv : v = 0
  · rw [hv, Memory.write_zero] at hc
    exact he c hc
  · rw [Memory.write_ne_zero _ _ hv] at hc
    rcases Memory.mem_insert.mp hc with rfl | hc
    · exact ha
    · exact he c hc

/-! ## Byte sequences -/

@[simp] theorem Memory.readBytes_length (m : Memory) (a n : Nat) : (m.readBytes a n).length = n := by
  induction n generalizing a with
  | zero => rfl
  | succ n ih => simp [Memory.readBytes, ih]

@[simp] theorem Memory.readBytes_getElem (m : Memory) (a n i : Nat) (h : i < (m.readBytes a n).length) :
    (m.readBytes a n)[i] = m.read (a + i) := by
  induction n generalizing a i with
  | zero => simp at h
  | succ n ih =>
    cases i with
    | zero => simp [Memory.readBytes]
    | succ i =>
      have := ih (a + 1) i (by simpa using h)
      simpa [Memory.readBytes, Nat.add_assoc, Nat.add_comm 1 i] using this

/-- The bytes read are equal exactly when the bytes at each place are. -/
theorem Memory.readBytes_eq_iff (m m' : Memory) (a a' n : Nat) :
    m.readBytes a n = m'.readBytes a' n ↔ ∀ i < n, m.read (a + i) = m'.read (a' + i) := by
  constructor
  · intro h i hi
    have := List.getElem_of_eq h (i := i) (by simpa using hi)
    simpa using this
  · intro h
    exact List.ext_getElem (by simp) fun i hi _ => by simpa using h i (by simpa using hi)

/-- A write of a byte sequence leaves every place outside it alone. -/
theorem Memory.read_writeBytes_outside (m : Memory) (a : Nat) (vs : List Byte) {x : Nat}
    (hx : x < a ∨ a + vs.length ≤ x) : (m.writeBytes a vs).read x = m.read x := by
  induction vs generalizing m a with
  | nil => rfl
  | cons v vs ih =>
    simp only [List.length_cons] at hx
    rw [Memory.writeBytes, ih _ _ (by omega), Memory.read_write_other _ _ (by omega)]

/-- A read inside a written byte sequence gives its byte. -/
theorem Memory.read_writeBytes_inside (m : Memory) (a : Nat) (vs : List Byte) (i : Nat) (hi : i < vs.length) :
    (m.writeBytes a vs).read (a + i) = vs[i] := by
  induction vs generalizing m a i with
  | nil => simp at hi
  | cons v vs ih =>
    cases i with
    | zero =>
      rw [Memory.writeBytes, Memory.read_writeBytes_outside _ _ _ (by omega)]
      simp
    | succ i =>
      have := ih (m.write a v) (a + 1) i (by simpa using hi)
      simpa [Memory.writeBytes, Nat.add_assoc, Nat.add_comm 1 i] using this

/-- Reading back a written byte sequence gives it. -/
theorem Memory.readBytes_writeBytes (m : Memory) (a : Nat) (vs : List Byte) :
    (m.writeBytes a vs).readBytes a vs.length = vs := by
  exact List.ext_getElem (by simp) fun i _ hi => by
    simpa using Memory.read_writeBytes_inside m a vs i hi

/-- A byte sequence apart from the written one reads as before. -/
theorem Memory.readBytes_writeBytes_apart (m : Memory) (a : Nat) (vs : List Byte) (x n : Nat)
    (h : x + n ≤ a ∨ a + vs.length ≤ x) : (m.writeBytes a vs).readBytes x n = m.readBytes x n := by
  rw [Memory.readBytes_eq_iff]
  intro i hi
  exact Memory.read_writeBytes_outside _ _ _ (by omega)

theorem Memory.wf_writeBytes {m : Memory} (h : m.wf) (a : Nat) (vs : List Byte) :
    Memory.wf (m.writeBytes a vs) := by
  induction vs generalizing m a with
  | nil => exact h
  | cons v vs ih => exact ih (Memory.wf_write h a v) _

theorem Memory.locations_writeBytes {m : Memory} (h : m.inByteLocations) (a : Nat) (vs : List Byte)
    (ha : ∀ i < vs.length, byteIndex (a + i) = true) : Memory.inByteLocations (m.writeBytes a vs) := by
  induction vs generalizing m a with
  | nil => exact h
  | cons v vs ih =>
    refine ih (Memory.locations_write h (by simpa using ha 0) v) _ fun i hi => ?_
    have := ha (i + 1) (by simpa using hi)
    simpa [Nat.add_assoc, Nat.add_comm 1 i] using this

/-- A memory in canonical form lists the byte at an index exactly when it is not 0x00. -/
theorem Memory.mem_iff_read {m : Memory} (h : m.wf) (a : Nat) (v : Byte) :
    (a, v) ∈ m ↔ v ≠ 0 ∧ m.read a = v := by
  induction m with
  | nil => simpa [Memory.read] using fun (h : ¬v = 0) => Ne.symm h
  | cons c m ih =>
    obtain ⟨k, b⟩ := c
    have hp := List.pairwise_cons.mp h.1
    have ih := ih ⟨hp.2, fun d hd => h.2 d (by simp [hd])⟩
    by_cases hk : k = a
    · subst hk
      have hb : b ≠ 0 := h.2 (k, b) (by simp)
      have hno : (k, v) ∉ m := fun hm => by
        have := hp.1 _ hm
        simp at this
      simp only [List.mem_cons, Prod.mk.injEq, true_and, hno, or_false, Memory.read, if_true]
      constructor
      · rintro rfl
        exact ⟨hb, rfl⟩
      · exact fun h => h.2.symm
    · simp [Memory.read, hk, ih, Ne.symm hk]

end Sys2Proof.Machine
end

