-- ==== Sys2Proof/Laws/Functions.lean ====
section
/-! SUPPORT. The pure functions: lengths and ranges, one lemma per function. -/

namespace Sys2Proof.Machine

/-! ## Byte sequences -/

@[simp] theorem rep_length (b : Byte) (n : Nat) : (rep b n).length = n := by simp [rep]

@[simp] theorem xorBytes_length (A : List Byte) (b : Byte) : (xorBytes A b).length = A.length := by
  simp [xorBytes]

@[simp] theorem be32_length (w : Word) : (be32 w).length = 4 := rfl

@[simp] theorem be64_length (c : DWord) : (be64 c).length = 8 := rfl

theorem zeroPad_eq (n : Nat) (A : List Byte) : zeroPad n A = A ++ rep 0 (n - A.length) := rfl

theorem zeroPad_length {n : Nat} {A : List Byte} (h : A.length ≤ n) : (zeroPad n A).length = n := by
  simp [zeroPad]
  omega

theorem loHalf_toNat (c : DWord) : (loHalf c).toNat = c.toNat % 2 ^ 32 := by
  simp [loHalf]

theorem hiHalf_toNat (c : DWord) : (hiHalf c).toNat = c.toNat / 2 ^ 32 := by
  have := c.isLt
  simp [hiHalf, Nat.shiftRight_eq_div_pow]
  omega

theorem ofHalves_toNat (hi lo : Word) : (ofHalves hi lo).toNat = lo.toNat + 2 ^ 32 * hi.toNat := by
  show (hi ++ lo : BitVec (32 + 32)).toNat = _
  rw [BitVec.toNat_append, ← Nat.shiftLeft_add_eq_or_of_lt lo.isLt, Nat.shiftLeft_eq]
  omega

@[simp] theorem loHalf_ofHalves (hi lo : Word) : loHalf (ofHalves hi lo) = lo := by
  have := lo.isLt
  apply BitVec.eq_of_toNat_eq
  rw [loHalf_toNat, ofHalves_toNat]
  omega

@[simp] theorem hiHalf_ofHalves (hi lo : Word) : hiHalf (ofHalves hi lo) = hi := by
  have := lo.isLt
  apply BitVec.eq_of_toNat_eq
  rw [hiHalf_toNat, ofHalves_toNat]
  omega

/-- A 64-bit register is made of its halves. -/
@[simp] theorem ofHalves_halves (c : DWord) : ofHalves (hiHalf c) (loHalf c) = c := by
  apply BitVec.eq_of_toNat_eq
  rw [ofHalves_toNat, hiHalf_toNat, loHalf_toNat]
  omega

/-! ## SHA-1 and HMAC -/

@[simp] theorem chainBytes_length (h : Chain) : (chainBytes h).length = 20 := rfl

@[simp] theorem sha1_length (M : List Byte) : (sha1 M).length = 20 := rfl

@[simp] theorem hmacSha1_length (key msg : List Byte) : (hmacSha1 key msg).length = 20 := rfl

theorem hmacKeyBlock_length (key : List Byte) : (hmacKeyBlock key).length = 64 := by
  unfold hmacKeyBlock
  split
  · rw [zeroPad_length] <;> simp [Config.blockSize]
  · rw [zeroPad_length] <;> simp_all [Config.blockSize]

@[simp] theorem blockWords_length (n : Nat) (bs : List Byte) : (blockWords n bs).length = n := by
  induction n generalizing bs with
  | zero => rfl
  | succ n ih => simp [blockWords, ih]

@[simp] theorem schedule_length (n : Nat) (W : List Word) : (schedule n W).length = W.length + n := by
  induction n generalizing W with
  | zero => rfl
  | succ n ih => simp [schedule, ih]; omega

/-- One more block of the loop of SHA-1. -/
theorem compressBlocks_succ (n : Nat) (P : List Byte) (h : Chain) :
    compressBlocks (n + 1) P h = compress (compressBlocks n P h) (blockAt P n) := by
  simp only [compressBlocks, List.range_succ, List.foldl_append, List.foldl_cons, List.foldl_nil]

/-- One round of the loop of `Compress`. -/
theorem sha1Rounds_cons (t : Nat) (w : Word) (ws : List Word) (h : Chain) :
    sha1Rounds t (w :: ws) h = sha1Rounds (t + 1) ws (sha1Round t w h) := by rw [sha1Rounds]

/-- SHA-1 of a message, by the number of its blocks. -/
theorem sha1_eq (M : List Byte) :
    sha1 M = chainBytes (compressBlocks ((sha1Pad M).length / 64) (sha1Pad M) sha1Init) := by rw [sha1]

/-! ## Codes -/

@[simp] theorem codeStr_length (v : Word) (d : Nat) : (codeStr v d).length = d := by simp [codeStr]

theorem codeValue_toNat (b : Word) (d : Nat) : (codeValue b d).toNat = b.toNat % 10 ^ d := by
  have := b.isLt
  have := Nat.mod_le b.toNat (10 ^ d)
  simp [codeValue]
  omega

theorem codeValue_lt (b : Word) (d : Nat) : (codeValue b d).toNat < 10 ^ d := by
  rw [codeValue_toNat]
  exact Nat.mod_lt _ (Nat.pow_pos (by omega))

@[simp] theorem hotpResult_digest_length (kw : Option (List Byte)) (key : List Byte) (c : DWord) (d : Nat) :
    (hotpResult kw key c d).digest.length = 20 := rfl

theorem hotpResult_str_length (kw : Option (List Byte)) (key : List Byte) (c : DWord) {d : Nat} (h : d ≤ 9) :
    (hotpResult kw key c d).str.length = 9 := by
  show (zeroPad 9 (codeStr _ d)).length = 9
  exact zeroPad_length (by simpa using h)

/-- A truncated value has 31 bits (R152). -/
theorem dynTrunc_lt (D : List Byte) : (dynTrunc D).toNat < 2 ^ 31 := by
  have h : (dynTrunc D).getLsbD 31 = false := by
    simp [dynTrunc]
  have hm : (dynTrunc D).msb = false := by simpa [BitVec.msb_eq_getLsbD_last] using h
  simpa [BitVec.msb_eq_decide] using hm

/-! ## Time and window -/

theorem timeToCounter_toNat (t : DWord) (s : Word) :
    (timeToCounter t s).toNat = t.toNat / 1000 / s.toNat := by
  have h1 := t.isLt
  have h2 : t.toNat / 1000 / s.toNat ≤ t.toNat / 1000 := Nat.div_le_self _ _
  simp [timeToCounter]
  omega

theorem timeToCounter_lt (t : DWord) (s : Word) : (timeToCounter t s).toNat < 2 ^ 55 := by
  have h1 := t.isLt
  have h2 : t.toNat / 1000 / s.toNat ≤ t.toNat / 1000 := Nat.div_le_self _ _
  rw [timeToCounter_toNat]
  omega

/-- The search finds a counter exactly when one of the range satisfies the predicate. -/
theorem anyCounter_eq_true (p : Nat → Bool) (start n : Nat) :
    anyCounter p start n = true ↔ ∃ c, start ≤ c ∧ c < start + n ∧ p c = true := by
  induction n with
  | zero => simp [anyCounter]; intros; omega
  | succ n ih =>
    simp only [anyCounter, Bool.or_eq_true, ih]
    constructor
    · rintro (h | ⟨c, h1, h2, h3⟩)
      · exact ⟨start + n, by omega, by omega, h⟩
      · exact ⟨c, h1, by omega, h3⟩
    · rintro ⟨c, h1, h2, h3⟩
      by_cases hc : c = start + n
      · exact .inl (hc ▸ h3)
      · exact .inr ⟨c, h1, by omega, h3⟩

/-! ## Base32 -/

/-- A character's value has 5 bits (R102). -/
theorem charVal_lt {ch : Byte} {v : Nat} (h : charVal ch = some v) : v < 32 := by
  have := ch.isLt
  unfold charVal at h
  split at h
  · cases h; omega
  · split at h
    · cases h; omega
    · split at h
      · cases h; omega
      · cases h

/-- The decoder's loop gives one byte per 8 stream bits (R104). -/
theorem b32Loop_length (T : List Byte) (acc nbits : Nat) (h : nbits < 8) :
    (b32Loop T acc nbits).length = (nbits + 5 * (T.filterMap charVal).length) / 8 := by
  induction T generalizing acc nbits with
  | nil => simp [b32Loop]; omega
  | cons ch T ih =>
    cases hv : charVal ch with
    | none => simp [b32Loop, hv, ih acc nbits h]
    | some v =>
      by_cases hn : nbits + 5 ≥ 8
      · simp only [b32Loop, hv, if_pos hn, List.length_cons, List.filterMap_cons]
        rw [ih _ _ (by omega)]
        omega
      · simp only [b32Loop, hv, if_neg hn, List.length_cons, List.filterMap_cons]
        rw [ih _ _ (by omega)]
        omega

end Sys2Proof.Machine
end

