-- ==== Sys2Proof/Laws/State.lean ====
section
/-! SUPPORT. One lemma per field per update of the state, so that no later proof unfolds a record update. -/

namespace Sys2Proof.Machine

/-! ## setStartFlags -/
@[simp] theorem setStartFlags_cmd (s : State) : (setStartFlags s).cmd = s.cmd := rfl
@[simp] theorem setStartFlags_busy (s : State) : (setStartFlags s).busy = true := rfl
@[simp] theorem setStartFlags_done (s : State) : (setStartFlags s).done = false := rfl
@[simp] theorem setStartFlags_matched (s : State) : (setStartFlags s).matched = false := rfl
@[simp] theorem setStartFlags_err (s : State) : (setStartFlags s).err = 0 := rfl
@[simp] theorem setStartFlags_hash (s : State) : (setStartFlags s).hash = s.hash := rfl
@[simp] theorem setStartFlags_digits (s : State) : (setStartFlags s).digits = s.digits := rfl
@[simp] theorem setStartFlags_stepSecs (s : State) : (setStartFlags s).stepSecs = s.stepSecs := rfl
@[simp] theorem setStartFlags_window (s : State) : (setStartFlags s).window = s.window := rfl
@[simp] theorem setStartFlags_counter (s : State) : (setStartFlags s).counter = s.counter := rfl
@[simp] theorem setStartFlags_time (s : State) : (setStartFlags s).time = s.time := rfl
@[simp] theorem setStartFlags_textLen (s : State) : (setStartFlags s).textLen = s.textLen := rfl
@[simp] theorem setStartFlags_keyLen (s : State) : (setStartFlags s).keyLen = s.keyLen := rfl
@[simp] theorem setStartFlags_candLen (s : State) : (setStartFlags s).candLen = s.candLen := rfl
@[simp] theorem setStartFlags_ctr (s : State) : (setStartFlags s).ctr = s.ctr := rfl
@[simp] theorem setStartFlags_trunc (s : State) : (setStartFlags s).trunc = s.trunc := rfl
@[simp] theorem setStartFlags_code (s : State) : (setStartFlags s).code = s.code := rfl
@[simp] theorem setStartFlags_mem (s : State) : (setStartFlags s).mem = s.mem := rfl
@[simp] theorem setStartFlags_agenda (s : State) : (setStartFlags s).agenda = s.agenda := rfl
@[simp] theorem setStartFlags_readData (s : State) : (setStartFlags s).readData = s.readData := rfl

/-! ## setEndFlags -/
@[simp] theorem setEndFlags_cmd (m : Bool) (e : BitVec 4) (s : State) :
    (setEndFlags m e s).cmd = s.cmd := rfl
@[simp] theorem setEndFlags_busy (m : Bool) (e : BitVec 4) (s : State) :
    (setEndFlags m e s).busy = false := rfl
@[simp] theorem setEndFlags_done (m : Bool) (e : BitVec 4) (s : State) :
    (setEndFlags m e s).done = true := rfl
@[simp] theorem setEndFlags_matched (m : Bool) (e : BitVec 4) (s : State) :
    (setEndFlags m e s).matched = m := rfl
@[simp] theorem setEndFlags_err (m : Bool) (e : BitVec 4) (s : State) : (setEndFlags m e s).err = e := rfl
@[simp] theorem setEndFlags_hash (m : Bool) (e : BitVec 4) (s : State) :
    (setEndFlags m e s).hash = s.hash := rfl
@[simp] theorem setEndFlags_digits (m : Bool) (e : BitVec 4) (s : State) :
    (setEndFlags m e s).digits = s.digits := rfl
@[simp] theorem setEndFlags_stepSecs (m : Bool) (e : BitVec 4) (s : State) :
    (setEndFlags m e s).stepSecs = s.stepSecs := rfl
@[simp] theorem setEndFlags_window (m : Bool) (e : BitVec 4) (s : State) :
    (setEndFlags m e s).window = s.window := rfl
@[simp] theorem setEndFlags_counter (m : Bool) (e : BitVec 4) (s : State) :
    (setEndFlags m e s).counter = s.counter := rfl
@[simp] theorem setEndFlags_time (m : Bool) (e : BitVec 4) (s : State) :
    (setEndFlags m e s).time = s.time := rfl
@[simp] theorem setEndFlags_textLen (m : Bool) (e : BitVec 4) (s : State) :
    (setEndFlags m e s).textLen = s.textLen := rfl
@[simp] theorem setEndFlags_keyLen (m : Bool) (e : BitVec 4) (s : State) :
    (setEndFlags m e s).keyLen = s.keyLen := rfl
@[simp] theorem setEndFlags_candLen (m : Bool) (e : BitVec 4) (s : State) :
    (setEndFlags m e s).candLen = s.candLen := rfl
@[simp] theorem setEndFlags_ctr (m : Bool) (e : BitVec 4) (s : State) :
    (setEndFlags m e s).ctr = s.ctr := rfl
@[simp] theorem setEndFlags_trunc (m : Bool) (e : BitVec 4) (s : State) :
    (setEndFlags m e s).trunc = s.trunc := rfl
@[simp] theorem setEndFlags_code (m : Bool) (e : BitVec 4) (s : State) :
    (setEndFlags m e s).code = s.code := rfl
@[simp] theorem setEndFlags_mem (m : Bool) (e : BitVec 4) (s : State) :
    (setEndFlags m e s).mem = s.mem := rfl
@[simp] theorem setEndFlags_agenda (m : Bool) (e : BitVec 4) (s : State) :
    (setEndFlags m e s).agenda = s.agenda := rfl
@[simp] theorem setEndFlags_readData (m : Bool) (e : BitVec 4) (s : State) :
    (setEndFlags m e s).readData = s.readData := rfl

/-! ## startCommand -/
@[simp] theorem startCommand_cmd (v : Word) (s : State) : (startCommand v s).cmd = v := rfl
@[simp] theorem startCommand_busy (v : Word) (s : State) : (startCommand v s).busy = true := rfl
@[simp] theorem startCommand_done (v : Word) (s : State) : (startCommand v s).done = false := rfl
@[simp] theorem startCommand_matched (v : Word) (s : State) : (startCommand v s).matched = false := rfl
@[simp] theorem startCommand_err (v : Word) (s : State) : (startCommand v s).err = 0 := rfl
@[simp] theorem startCommand_hash (v : Word) (s : State) : (startCommand v s).hash = s.hash := rfl
@[simp] theorem startCommand_digits (v : Word) (s : State) : (startCommand v s).digits = s.digits := rfl
@[simp] theorem startCommand_stepSecs (v : Word) (s : State) :
    (startCommand v s).stepSecs = s.stepSecs := rfl
@[simp] theorem startCommand_window (v : Word) (s : State) : (startCommand v s).window = s.window := rfl
@[simp] theorem startCommand_counter (v : Word) (s : State) : (startCommand v s).counter = s.counter := rfl
@[simp] theorem startCommand_time (v : Word) (s : State) : (startCommand v s).time = s.time := rfl
@[simp] theorem startCommand_textLen (v : Word) (s : State) : (startCommand v s).textLen = s.textLen := rfl
@[simp] theorem startCommand_keyLen (v : Word) (s : State) : (startCommand v s).keyLen = s.keyLen := rfl
@[simp] theorem startCommand_candLen (v : Word) (s : State) : (startCommand v s).candLen = s.candLen := rfl
@[simp] theorem startCommand_ctr (v : Word) (s : State) : (startCommand v s).ctr = s.ctr := rfl
@[simp] theorem startCommand_trunc (v : Word) (s : State) : (startCommand v s).trunc = s.trunc := rfl
@[simp] theorem startCommand_code (v : Word) (s : State) : (startCommand v s).code = s.code := rfl
@[simp] theorem startCommand_mem (v : Word) (s : State) : (startCommand v s).mem = s.mem := rfl
@[simp] theorem startCommand_agenda (v : Word) (s : State) : (startCommand v s).agenda = s.agenda := rfl
@[simp] theorem startCommand_readData (v : Word) (s : State) :
    (startCommand v s).readData = s.readData := rfl

/-! ## hostRead -/
@[simp] theorem hostRead_cmd (a : Index) (s : State) : (hostRead a s).cmd = s.cmd := rfl
@[simp] theorem hostRead_busy (a : Index) (s : State) : (hostRead a s).busy = s.busy := rfl
@[simp] theorem hostRead_done (a : Index) (s : State) : (hostRead a s).done = s.done := rfl
@[simp] theorem hostRead_matched (a : Index) (s : State) : (hostRead a s).matched = s.matched := rfl
@[simp] theorem hostRead_err (a : Index) (s : State) : (hostRead a s).err = s.err := rfl
@[simp] theorem hostRead_hash (a : Index) (s : State) : (hostRead a s).hash = s.hash := rfl
@[simp] theorem hostRead_digits (a : Index) (s : State) : (hostRead a s).digits = s.digits := rfl
@[simp] theorem hostRead_stepSecs (a : Index) (s : State) : (hostRead a s).stepSecs = s.stepSecs := rfl
@[simp] theorem hostRead_window (a : Index) (s : State) : (hostRead a s).window = s.window := rfl
@[simp] theorem hostRead_counter (a : Index) (s : State) : (hostRead a s).counter = s.counter := rfl
@[simp] theorem hostRead_time (a : Index) (s : State) : (hostRead a s).time = s.time := rfl
@[simp] theorem hostRead_textLen (a : Index) (s : State) : (hostRead a s).textLen = s.textLen := rfl
@[simp] theorem hostRead_keyLen (a : Index) (s : State) : (hostRead a s).keyLen = s.keyLen := rfl
@[simp] theorem hostRead_candLen (a : Index) (s : State) : (hostRead a s).candLen = s.candLen := rfl
@[simp] theorem hostRead_ctr (a : Index) (s : State) : (hostRead a s).ctr = s.ctr := rfl
@[simp] theorem hostRead_trunc (a : Index) (s : State) : (hostRead a s).trunc = s.trunc := rfl
@[simp] theorem hostRead_code (a : Index) (s : State) : (hostRead a s).code = s.code := rfl
@[simp] theorem hostRead_mem (a : Index) (s : State) : (hostRead a s).mem = s.mem := rfl
@[simp] theorem hostRead_agenda (a : Index) (s : State) : (hostRead a s).agenda = s.agenda := rfl
@[simp] theorem hostRead_readData (a : Index) (s : State) :
    (hostRead a s).readData = some (portRead a s) := rfl

/-! ## resetCore -/
@[simp] theorem resetCore_cmd (s : State) : (resetCore s).cmd = 0 := rfl
@[simp] theorem resetCore_busy (s : State) : (resetCore s).busy = false := rfl
@[simp] theorem resetCore_done (s : State) : (resetCore s).done = false := rfl
@[simp] theorem resetCore_matched (s : State) : (resetCore s).matched = false := rfl
@[simp] theorem resetCore_err (s : State) : (resetCore s).err = 0 := rfl
@[simp] theorem resetCore_hash (s : State) : (resetCore s).hash = 0 := rfl
@[simp] theorem resetCore_digits (s : State) : (resetCore s).digits = 6 := rfl
@[simp] theorem resetCore_stepSecs (s : State) : (resetCore s).stepSecs = 30 := rfl
@[simp] theorem resetCore_window (s : State) : (resetCore s).window = 1 := rfl
@[simp] theorem resetCore_counter (s : State) : (resetCore s).counter = 0 := rfl
@[simp] theorem resetCore_time (s : State) : (resetCore s).time = 0 := rfl
@[simp] theorem resetCore_textLen (s : State) : (resetCore s).textLen = 0 := rfl
@[simp] theorem resetCore_keyLen (s : State) : (resetCore s).keyLen = 0 := rfl
@[simp] theorem resetCore_candLen (s : State) : (resetCore s).candLen = 0 := rfl
@[simp] theorem resetCore_ctr (s : State) : (resetCore s).ctr = 0 := rfl
@[simp] theorem resetCore_trunc (s : State) : (resetCore s).trunc = 0 := rfl
@[simp] theorem resetCore_code (s : State) : (resetCore s).code = 0 := rfl
@[simp] theorem resetCore_mem (s : State) : (resetCore s).mem = [] := rfl
@[simp] theorem resetCore_agenda (s : State) : (resetCore s).agenda = s.agenda := rfl
@[simp] theorem resetCore_readData (s : State) : (resetCore s).readData = s.readData := rfl

/-! ## writeResults -/
@[simp] theorem writeResults_cmd (o : Result) (s : State) : (writeResults o s).cmd = s.cmd := rfl
@[simp] theorem writeResults_busy (o : Result) (s : State) : (writeResults o s).busy = s.busy := rfl
@[simp] theorem writeResults_done (o : Result) (s : State) : (writeResults o s).done = s.done := rfl
@[simp] theorem writeResults_matched (o : Result) (s : State) :
    (writeResults o s).matched = s.matched := rfl
@[simp] theorem writeResults_err (o : Result) (s : State) : (writeResults o s).err = s.err := rfl
@[simp] theorem writeResults_hash (o : Result) (s : State) : (writeResults o s).hash = s.hash := rfl
@[simp] theorem writeResults_digits (o : Result) (s : State) : (writeResults o s).digits = s.digits := rfl
@[simp] theorem writeResults_stepSecs (o : Result) (s : State) :
    (writeResults o s).stepSecs = s.stepSecs := rfl
@[simp] theorem writeResults_window (o : Result) (s : State) : (writeResults o s).window = s.window := rfl
@[simp] theorem writeResults_counter (o : Result) (s : State) :
    (writeResults o s).counter = s.counter := rfl
@[simp] theorem writeResults_time (o : Result) (s : State) : (writeResults o s).time = s.time := rfl
@[simp] theorem writeResults_textLen (o : Result) (s : State) :
    (writeResults o s).textLen = s.textLen := rfl
@[simp] theorem writeResults_keyLen (o : Result) (s : State) : (writeResults o s).keyLen = s.keyLen := rfl
@[simp] theorem writeResults_candLen (o : Result) (s : State) :
    (writeResults o s).candLen = s.candLen := rfl
@[simp] theorem writeResults_ctr (o : Result) (s : State) : (writeResults o s).ctr = o.ctr := rfl
@[simp] theorem writeResults_trunc (o : Result) (s : State) : (writeResults o s).trunc = o.trunc := rfl
@[simp] theorem writeResults_code (o : Result) (s : State) : (writeResults o s).code = o.code := rfl
@[simp] theorem writeResults_mem (o : Result) (s : State) :
    (writeResults o s).mem = (s.mem.writeBytes Buf.codeStr.base o.str).writeBytes Buf.digest.base o.digest := rfl
@[simp] theorem writeResults_agenda (o : Result) (s : State) : (writeResults o s).agenda = s.agenda := rfl
@[simp] theorem writeResults_readData (o : Result) (s : State) :
    (writeResults o s).readData = s.readData := rfl

/-! ## writeKey -/

@[simp] theorem writeKey_none (s : State) : writeKey none s = s := rfl
@[simp] theorem writeKey_some_keyLen (k : List Byte) (s : State) :
    (writeKey (some k) s).keyLen = BitVec.ofNat 32 k.length := rfl
@[simp] theorem writeKey_some_mem (k : List Byte) (s : State) :
    (writeKey (some k) s).mem = s.mem.writeBytes Buf.key.base (zeroPad Config.keyMax k) := rfl

/-! ## writeKey -/
@[simp] theorem writeKey_cmd (kw : Option (List Byte)) (s : State) :
    (writeKey kw s).cmd = s.cmd := by
  cases kw <;> rfl
@[simp] theorem writeKey_busy (kw : Option (List Byte)) (s : State) :
    (writeKey kw s).busy = s.busy := by
  cases kw <;> rfl
@[simp] theorem writeKey_done (kw : Option (List Byte)) (s : State) :
    (writeKey kw s).done = s.done := by
  cases kw <;> rfl
@[simp] theorem writeKey_matched (kw : Option (List Byte)) (s : State) :
    (writeKey kw s).matched = s.matched := by
  cases kw <;> rfl
@[simp] theorem writeKey_err (kw : Option (List Byte)) (s : State) :
    (writeKey kw s).err = s.err := by
  cases kw <;> rfl
@[simp] theorem writeKey_hash (kw : Option (List Byte)) (s : State) :
    (writeKey kw s).hash = s.hash := by
  cases kw <;> rfl
@[simp] theorem writeKey_digits (kw : Option (List Byte)) (s : State) :
    (writeKey kw s).digits = s.digits := by
  cases kw <;> rfl
@[simp] theorem writeKey_stepSecs (kw : Option (List Byte)) (s : State) :
    (writeKey kw s).stepSecs = s.stepSecs := by
  cases kw <;> rfl
@[simp] theorem writeKey_window (kw : Option (List Byte)) (s : State) :
    (writeKey kw s).window = s.window := by
  cases kw <;> rfl
@[simp] theorem writeKey_counter (kw : Option (List Byte)) (s : State) :
    (writeKey kw s).counter = s.counter := by
  cases kw <;> rfl
@[simp] theorem writeKey_time (kw : Option (List Byte)) (s : State) :
    (writeKey kw s).time = s.time := by
  cases kw <;> rfl
@[simp] theorem writeKey_textLen (kw : Option (List Byte)) (s : State) :
    (writeKey kw s).textLen = s.textLen := by
  cases kw <;> rfl
@[simp] theorem writeKey_candLen (kw : Option (List Byte)) (s : State) :
    (writeKey kw s).candLen = s.candLen := by
  cases kw <;> rfl
@[simp] theorem writeKey_ctr (kw : Option (List Byte)) (s : State) :
    (writeKey kw s).ctr = s.ctr := by
  cases kw <;> rfl
@[simp] theorem writeKey_trunc (kw : Option (List Byte)) (s : State) :
    (writeKey kw s).trunc = s.trunc := by
  cases kw <;> rfl
@[simp] theorem writeKey_code (kw : Option (List Byte)) (s : State) :
    (writeKey kw s).code = s.code := by
  cases kw <;> rfl
@[simp] theorem writeKey_agenda (kw : Option (List Byte)) (s : State) :
    (writeKey kw s).agenda = s.agenda := by
  cases kw <;> rfl
@[simp] theorem writeKey_readData (kw : Option (List Byte)) (s : State) :
    (writeKey kw s).readData = s.readData := by
  cases kw <;> rfl

/-! ## complete -/
@[simp] theorem complete_cmd (o : Result) (s : State) : (complete o s).cmd = s.cmd := by
  simp [complete]
@[simp] theorem complete_busy (o : Result) (s : State) : (complete o s).busy = false := by
  simp [complete]
@[simp] theorem complete_done (o : Result) (s : State) : (complete o s).done = true := by
  simp [complete]
@[simp] theorem complete_matched (o : Result) (s : State) :
    (complete o s).matched = o.matched := by
  simp [complete]
@[simp] theorem complete_err (o : Result) (s : State) : (complete o s).err = o.err := by
  simp [complete]
@[simp] theorem complete_hash (o : Result) (s : State) :
    (complete o s).hash = s.hash := by
  simp [complete]
@[simp] theorem complete_digits (o : Result) (s : State) :
    (complete o s).digits = s.digits := by
  simp [complete]
@[simp] theorem complete_stepSecs (o : Result) (s : State) :
    (complete o s).stepSecs = s.stepSecs := by
  simp [complete]
@[simp] theorem complete_window (o : Result) (s : State) :
    (complete o s).window = s.window := by
  simp [complete]
@[simp] theorem complete_counter (o : Result) (s : State) :
    (complete o s).counter = s.counter := by
  simp [complete]
@[simp] theorem complete_time (o : Result) (s : State) :
    (complete o s).time = s.time := by
  simp [complete]
@[simp] theorem complete_textLen (o : Result) (s : State) :
    (complete o s).textLen = s.textLen := by
  simp [complete]
@[simp] theorem complete_keyLen (o : Result) (s : State) :
    (complete o s).keyLen = (writeKey o.keyWrite s).keyLen := by
  simp [complete]
@[simp] theorem complete_candLen (o : Result) (s : State) :
    (complete o s).candLen = s.candLen := by
  simp [complete]
@[simp] theorem complete_ctr (o : Result) (s : State) : (complete o s).ctr = o.ctr := by
  simp [complete]
@[simp] theorem complete_trunc (o : Result) (s : State) :
    (complete o s).trunc = o.trunc := by
  simp [complete]
@[simp] theorem complete_code (o : Result) (s : State) :
    (complete o s).code = o.code := by
  simp [complete]
@[simp] theorem complete_mem (o : Result) (s : State) :
    (complete o s).mem = ((writeKey o.keyWrite s).mem.writeBytes Buf.codeStr.base o.str).writeBytes Buf.digest.base o.digest := by
  simp [complete]
@[simp] theorem complete_agenda (o : Result) (s : State) :
    (complete o s).agenda = s.agenda := by
  simp [complete]
@[simp] theorem complete_readData (o : Result) (s : State) :
    (complete o s).readData = s.readData := by
  simp [complete]

/-! ## errorOutcome -/
@[simp] theorem errorOutcome_cmd (e : BitVec 4) (s : State) :
    (errorOutcome e s).cmd = s.cmd := by
  simp [errorOutcome, zeroResult]
@[simp] theorem errorOutcome_busy (e : BitVec 4) (s : State) :
    (errorOutcome e s).busy = false := by
  simp [errorOutcome, zeroResult]
@[simp] theorem errorOutcome_done (e : BitVec 4) (s : State) :
    (errorOutcome e s).done = true := by
  simp [errorOutcome, zeroResult]
@[simp] theorem errorOutcome_matched (e : BitVec 4) (s : State) :
    (errorOutcome e s).matched = false := by
  simp [errorOutcome, zeroResult]
@[simp] theorem errorOutcome_err (e : BitVec 4) (s : State) :
    (errorOutcome e s).err = e := by
  simp [errorOutcome, zeroResult]
@[simp] theorem errorOutcome_hash (e : BitVec 4) (s : State) :
    (errorOutcome e s).hash = s.hash := by
  simp [errorOutcome, zeroResult]
@[simp] theorem errorOutcome_digits (e : BitVec 4) (s : State) :
    (errorOutcome e s).digits = s.digits := by
  simp [errorOutcome, zeroResult]
@[simp] theorem errorOutcome_stepSecs (e : BitVec 4) (s : State) :
    (errorOutcome e s).stepSecs = s.stepSecs := by
  simp [errorOutcome, zeroResult]
@[simp] theorem errorOutcome_window (e : BitVec 4) (s : State) :
    (errorOutcome e s).window = s.window := by
  simp [errorOutcome, zeroResult]
@[simp] theorem errorOutcome_counter (e : BitVec 4) (s : State) :
    (errorOutcome e s).counter = s.counter := by
  simp [errorOutcome, zeroResult]
@[simp] theorem errorOutcome_time (e : BitVec 4) (s : State) :
    (errorOutcome e s).time = s.time := by
  simp [errorOutcome, zeroResult]
@[simp] theorem errorOutcome_textLen (e : BitVec 4) (s : State) :
    (errorOutcome e s).textLen = s.textLen := by
  simp [errorOutcome, zeroResult]
@[simp] theorem errorOutcome_keyLen (e : BitVec 4) (s : State) :
    (errorOutcome e s).keyLen = s.keyLen := by
  simp [errorOutcome, zeroResult]
@[simp] theorem errorOutcome_candLen (e : BitVec 4) (s : State) :
    (errorOutcome e s).candLen = s.candLen := by
  simp [errorOutcome, zeroResult]
@[simp] theorem errorOutcome_ctr (e : BitVec 4) (s : State) :
    (errorOutcome e s).ctr = 0 := by
  simp [errorOutcome, zeroResult]
@[simp] theorem errorOutcome_trunc (e : BitVec 4) (s : State) :
    (errorOutcome e s).trunc = 0 := by
  simp [errorOutcome, zeroResult]
@[simp] theorem errorOutcome_code (e : BitVec 4) (s : State) :
    (errorOutcome e s).code = 0 := by
  simp [errorOutcome, zeroResult]
@[simp] theorem errorOutcome_mem (e : BitVec 4) (s : State) :
    (errorOutcome e s).mem = (s.mem.writeBytes Buf.codeStr.base (rep 0 9)).writeBytes Buf.digest.base (rep 0 20) := by
  simp [errorOutcome, zeroResult]
@[simp] theorem errorOutcome_agenda (e : BitVec 4) (s : State) :
    (errorOutcome e s).agenda = s.agenda := by
  simp [errorOutcome, zeroResult]
@[simp] theorem errorOutcome_readData (e : BitVec 4) (s : State) :
    (errorOutcome e s).readData = s.readData := by
  simp [errorOutcome, zeroResult]

end Sys2Proof.Machine
end

