-- ==== Sys2Proof/Laws/Ops.lean ====
section
/-! SUPPORT. What a completion leaves in memory, and what every command does: one equation for all seven. -/

namespace Sys2Proof.Machine

/-! ## Buffers -/

theorem State.buf_length (s : State) (b : Buf) : (s.buf b).length = b.size := by simp [State.buf]

theorem State.buf_eq_iff (s t : State) (b : Buf) :
    t.buf b = s.buf b ↔ ∀ i < b.size, t.bufAt b i = s.bufAt b i :=
  Memory.readBytes_eq_iff _ _ _ _ _

theorem State.buf_getElem (s : State) (b : Buf) (i : Nat) (h : i < (s.buf b).length) :
    (s.buf b)[i] = s.bufAt b i := Memory.readBytes_getElem _ _ _ _ _

theorem Buf.holds_iff (b : Buf) (a : Nat) : b.holds a = true ↔ b.base ≤ a ∧ a < b.base + b.size := by
  simp [Buf.holds]

theorem Buf.not_holds_iff (b : Buf) (a : Nat) : b.holds a = false ↔ a < b.base ∨ b.base + b.size ≤ a := by
  simp [Buf.holds]
  omega

/-- The entries of a buffer are byte locations. -/
theorem Buf.byteIndex_entry (b : Buf) {i : Nat} (h : i < b.size) : byteIndex (b.base + i) = true := by
  have : b.holds (b.base + i) = true := (Buf.holds_iff _ _).mpr ⟨by omega, by omega⟩
  cases b <;> simp [byteIndex, this]

/-! ## Completion -/

/-- The memory after a completion, outside the buffers it stores to. -/
theorem complete_read_outside (o : Result) (s : State) {a : Nat} (hs : o.str.length = 9)
    (hd : o.digest.length = 20) (h1 : Buf.codeStr.holds a = false) (h2 : Buf.digest.holds a = false)
    (hk : ∀ k, o.keyWrite = some k → k.length ≤ 160 ∧ Buf.key.holds a = false) :
    (complete o s).mem.read a = s.mem.read a := by
  rw [Buf.not_holds_iff] at h1 h2
  rw [complete_mem, Memory.read_writeBytes_outside _ _ _ (by rw [hd]; exact h2),
    Memory.read_writeBytes_outside _ _ _ (by rw [hs]; exact h1)]
  cases hw : o.keyWrite with
  | none => rfl
  | some k =>
    obtain ⟨hl, hh⟩ := hk k hw
    rw [Buf.not_holds_iff] at hh
    rw [writeKey_some_mem, Memory.read_writeBytes_outside]
    rw [show (zeroPad Config.keyMax k).length = 160 from zeroPad_length hl]
    exact hh

theorem complete_digest (o : Result) (s : State) (hd : o.digest.length = 20) :
    (complete o s).buf .digest = o.digest := by
  have := Memory.readBytes_writeBytes ((writeKey o.keyWrite s).mem.writeBytes Buf.codeStr.base o.str)
    Buf.digest.base o.digest
  rwa [hd] at this

theorem complete_codeStr (o : Result) (s : State) (hs : o.str.length = 9) :
    (complete o s).buf .codeStr = o.str := by
  have := Memory.readBytes_writeBytes (writeKey o.keyWrite s).mem Buf.codeStr.base o.str
  rw [hs] at this
  rw [State.buf, complete_mem, Memory.readBytes_writeBytes_apart _ _ _ _ _ (.inl (by decide))]
  exact this

theorem complete_key_some (o : Result) (s : State) {k : List Byte} (hk : o.keyWrite = some k)
    (hl : k.length ≤ 160) (hs : o.str.length = 9) (hd : o.digest.length = 20) :
    (complete o s).buf .key = k ++ rep 0 (160 - k.length) := by
  have := Memory.readBytes_writeBytes s.mem Buf.key.base (zeroPad Config.keyMax k)
  rw [show (zeroPad Config.keyMax k).length = 160 from zeroPad_length hl] at this
  rw [State.buf, complete_mem,
    Memory.readBytes_writeBytes_apart _ _ _ _ _ (.inr (by rw [hd]; decide)),
    Memory.readBytes_writeBytes_apart _ _ _ _ _ (.inr (by rw [hs]; decide)), hk, writeKey_some_mem]
  exact this

theorem complete_wf (o : Result) (s : State) (h : s.mem.wf) : (complete o s).mem.wf := by
  rw [complete_mem]
  refine Memory.wf_writeBytes (Memory.wf_writeBytes ?_ _ _) _ _
  cases o.keyWrite with
  | none => exact h
  | some k => exact Memory.wf_writeBytes h _ _

theorem complete_locations (o : Result) (s : State) (hs : o.str.length = 9) (hd : o.digest.length = 20)
    (hk : ∀ k, o.keyWrite = some k → k.length ≤ 160) (h : s.mem.inByteLocations) :
    (complete o s).mem.inByteLocations := by
  rw [complete_mem]
  refine Memory.locations_writeBytes (Memory.locations_writeBytes ?_ _ _ ?_) _ _ ?_
  · cases hw : o.keyWrite with
    | none => exact h
    | some k =>
      refine Memory.locations_writeBytes h _ _ fun i hi => Buf.byteIndex_entry .key ?_
      rwa [show (zeroPad Config.keyMax k).length = 160 from zeroPad_length (hk k hw)] at hi
  · exact fun i hi => Buf.byteIndex_entry .codeStr (by rwa [hs] at hi)
  · exact fun i hi => Buf.byteIndex_entry .digest (by rwa [hd] at hi)

/-! ## Check -/

/-- When `Check` finds nothing, for each kind of command. -/
theorem checkArgs_eq_zero {op : Nat} {k : Bool} {s : State} :
    checkArgs op k s = 0 ↔
      (op ≥ 2 → s.hash = 0 ∧ 1 ≤ s.digits.toNat ∧ s.digits.toNat ≤ 9) ∧ (op ≥ 3 → s.stepSecs ≠ 0) ∧
      (op = 1 ∨ k = true → s.textLen.toNat ≤ 256) ∧ (op ≥ 2 → k = false → s.keyLen.toNat ≤ 160) := by
  unfold checkArgs errHash errDigits errStep errLen errNone Config.textMax Config.keyMax
  by_cases h1 : op ≥ 2 ∧ s.hash ≠ 0
  · rw [if_pos h1]
    exact ⟨fun h => absurd h (by decide), fun h => absurd (h.1 h1.1).1 h1.2⟩
  by_cases h2 : op ≥ 2 ∧ (s.digits.toNat < 1 ∨ s.digits.toNat > 9)
  · rw [if_neg h1, if_pos h2]
    exact ⟨fun h => absurd h (by decide), fun h => absurd (h.1 h2.1).2 (by omega)⟩
  by_cases h3 : op ≥ 3 ∧ s.stepSecs = 0
  · rw [if_neg h1, if_neg h2, if_pos h3]
    exact ⟨fun h => absurd h (by decide), fun h => absurd h3.2 (h.2.1 h3.1)⟩
  by_cases h4 : (op = 1 ∨ k = true) ∧ s.textLen.toNat > 256
  · rw [if_neg h1, if_neg h2, if_neg h3, if_pos h4]
    exact ⟨fun h => absurd h (by decide), fun h => absurd (h.2.2.1 h4.1) (by omega)⟩
  by_cases h5 : op ≥ 2 ∧ k = false ∧ s.keyLen.toNat > 160
  · rw [if_neg h1, if_neg h2, if_neg h3, if_neg h4, if_pos h5]
    exact ⟨fun h => absurd h (by decide), fun h => absurd (h.2.2.2 h5.1 h5.2.1) (by omega)⟩
  · rw [if_neg h1, if_neg h2, if_neg h3, if_neg h4, if_neg h5]
    refine ⟨fun _ => ⟨fun h => ⟨Classical.not_not.mp fun hh => h1 ⟨h, hh⟩, ?_, ?_⟩, fun h hs => h3 ⟨h, hs⟩,
      fun h => Nat.le_of_not_lt fun hl => h4 ⟨h, hl⟩,
      fun h hk => Nat.le_of_not_lt fun hl => h5 ⟨h, hk, hl⟩⟩, fun _ => rfl⟩
    · exact Nat.le_of_not_lt fun hl => h2 ⟨h, .inl hl⟩
    · exact Nat.le_of_not_lt fun hl => h2 ⟨h, .inr hl⟩

/-- `Check` gives one of the codes 0, 2, 3, 4, 5 past the command word's own lines. -/
theorem checkArgs_le (op : Nat) (k : Bool) (s : State) : (checkArgs op k s).toNat ≤ 5 := by
  unfold checkArgs
  repeat' split
  all_goals decide

/-! ## The seven commands -/

/-- The outcome record of a command whose `Check` finds nothing (30_encoding.md R88). -/
def resultOf (i : Instr) (s : State) : Result :=
  match i with
  | .b32dec => { zeroResult with keyWrite := some (decodedKey s) }
  | .hotp => hotpResult none (keyString s) s.counter (digitCount s)
  | .hotpT => hotpResult (some (decodedKey s)) (decodedKey s) s.counter (digitCount s)
  | .totp => hotpResult none (keyString s) (centreCounter s) (digitCount s)
  | .totpT => hotpResult (some (decodedKey s)) (decodedKey s) (centreCounter s) (digitCount s)
  | .verify => verifyResult none (keyString s) s
  | .verifyT => verifyResult (some (decodedKey s)) (decodedKey s) s

/-- Everything a command can do: the error outcome of its `Check`, or the completion with its record. -/
theorem exec_eq (i : Instr) (s : State) :
    exec i s = .next (if checkArgs i.op.toNat i.ksrc s ≠ 0
      then errorOutcome (checkArgs i.op.toNat i.ksrc s) s else complete (resultOf i s) s) := by
  cases i <;> exact (apply_ite Host.Outcome.next _ _ _).symm

/-- A command whose `Check` finds nothing. -/
theorem exec_of_check_eq_zero {i : Instr} {s : State} (h : checkArgs i.op.toNat i.ksrc s = 0) :
    exec i s = .next (complete (resultOf i s) s) := by
  rw [exec_eq, if_neg (by simpa using h)]

/-- A command whose `Check` finds a cause. -/
theorem exec_of_check_ne_zero {i : Instr} {s : State} (h : checkArgs i.op.toNat i.ksrc s ≠ 0) :
    exec i s = .next (errorOutcome (checkArgs i.op.toNat i.ksrc s) s) := by
  rw [exec_eq, if_pos h]

@[simp] theorem resultOf_err (i : Instr) (s : State) : (resultOf i s).err = 0 := by cases i <;> rfl

@[simp] theorem resultOf_digest_length (i : Instr) (s : State) : (resultOf i s).digest.length = 20 := by
  cases i <;> rfl

/-- A generator's check bounds its digit count. -/
theorem digitCount_le {i : Instr} {s : State} (hi : i ≠ .b32dec) (h : checkArgs i.op.toNat i.ksrc s = 0) :
    1 ≤ digitCount s ∧ digitCount s ≤ 9 := by
  have := (checkArgs_eq_zero.mp h).1 (by cases i <;> simp_all [Instr.op])
  exact this.2

theorem resultOf_str_length {i : Instr} {s : State} (h : checkArgs i.op.toNat i.ksrc s = 0) :
    (resultOf i s).str.length = 9 := by
  cases i
  case b32dec => rfl
  case hotp => exact hotpResult_str_length _ _ _ (digitCount_le (by decide) h).2
  case hotpT => exact hotpResult_str_length _ _ _ (digitCount_le (by decide) h).2
  case totp => exact hotpResult_str_length _ _ _ (digitCount_le (by decide) h).2
  case totpT => exact hotpResult_str_length _ _ _ (digitCount_le (by decide) h).2
  case verify => rfl
  case verifyT => rfl

/-- Which commands write the key, and with what. -/
theorem resultOf_keyWrite (i : Instr) (s : State) :
    (resultOf i s).keyWrite = if i = .b32dec ∨ i.ksrc = true then some (decodedKey s) else none := by
  cases i <;> rfl

theorem textString_length (s : State) : (textString s).length = s.textLen.toNat := by simp [textString]

theorem keyString_length (s : State) : (keyString s).length = s.keyLen.toNat := by simp [keyString]

/-- The padding of a text is a part of the text. -/
theorem stripPadding_length_le (T : List Byte) : (stripPadding T).length ≤ T.length := by
  have := (List.dropWhile_suffix (l := T.reverse) (· == 0x3D#8)).length_le
  simpa [stripPadding] using this

/-- A legal text decodes to at most 160 bytes. -/
theorem decodedKey_length_le {s : State} (h : s.textLen.toNat ≤ 256) : (decodedKey s).length ≤ 160 := by
  have h1 : (decodedKey s).length = _ := b32Loop_length (stripPadding (textString s)) 0 0 (by omega)
  have h2 := List.length_filterMap_le charVal (stripPadding (textString s))
  have h3 := stripPadding_length_le (textString s)
  rw [textString_length] at h3
  omega

theorem resultOf_keyWrite_length {i : Instr} {s : State} (h : checkArgs i.op.toNat i.ksrc s = 0) :
    ∀ k, (resultOf i s).keyWrite = some k → k.length ≤ 160 := by
  intro k hk
  rw [resultOf_keyWrite] at hk
  split at hk
  · cases hk
    refine decodedKey_length_le ((checkArgs_eq_zero.mp h).2.2.1 ?_)
    rename_i hi
    rcases hi with rfl | hi
    · exact .inl rfl
    · exact .inr hi
  · cases hk

end Sys2Proof.Machine
end

