-- ==== Sys2Proof/Laws/Port.lean ====
section
/-! SUPPORT. The address decode, said once, and the port on a scalar register. -/

namespace Sys2Proof.Machine

/-- No index is in two buffers (10_state.md R22). -/
theorem Buf.eq_of_holds {b c : Buf} {n : Nat} (h : b.holds n = true) (hc : c.holds n = true) : b = c := by
  rw [Buf.holds_iff] at h hc
  cases b <;> cases c <;> first
    | rfl
    | (simp only [Buf.base, Buf.size, Config.codeStrMax, Config.candMax, Config.digestMax, Config.textMax,
        Config.keyMax] at h hc; omega)

theorem byteIndex_iff (n : Nat) : byteIndex n = true ↔ ∃ b : Buf, b.holds n = true := by
  simp only [byteIndex, Bool.or_eq_true]
  constructor
  · rintro ((((h | h) | h) | h) | h)
    exacts [⟨_, h⟩, ⟨_, h⟩, ⟨_, h⟩, ⟨_, h⟩, ⟨_, h⟩]
  · rintro ⟨b, h⟩
    cases b <;> simp [h]

theorem locateByte_of_holds {b : Buf} {n : Nat} (h : b.holds n = true) :
    locateByte n = .byte b (n - b.base) := by
  have hd : ∀ c : Buf, c ≠ b → c.holds n = false := fun c hc => by
    cases h' : c.holds n
    · rfl
    · exact absurd (Buf.eq_of_holds h' h) hc
  unfold locateByte
  cases b <;> simp [h, hd]

theorem locateByte_of_not_byte {n : Nat} (h : byteIndex n = false) : locateByte n = .reserved := by
  simp only [byteIndex, Bool.or_eq_false_iff] at h
  simp [locateByte, h]

/-- What an index selects: a scalar register at its index, or what `locateByte` says (20_memory.md R61). -/
theorem locate_cases (a : Index) :
    (∃ r, locate a = .reg r ∧ a = r.index) ∨ (locate a = locateByte a.toNat ∧ ∀ r : Reg, a ≠ r.index) := by
  have hE : ∀ n, a.toNat = n → a = BitVec.ofNat 10 n := fun n h => by rw [← h]; simp
  unfold locate
  split
  all_goals first
    | (rename_i h; exact .inl ⟨_, rfl, hE _ h⟩)
    | skip
  refine .inr ⟨rfl, ?_⟩
  rintro r rfl
  cases r <;> simp_all [Reg.index]

theorem hostWrite_reg {s : State} (hb : s.busy = false) (r : Reg) (v : Word) :
    hostWrite r.index v s = writeReg r v s := by
  cases r <;> simp only [hostWrite, hb] <;> rfl

theorem portRead_reg (s : State) (r : Reg) : portRead r.index s = readReg r s := by cases r <;> rfl

/-- The status word as a number (10_state.md R24). -/
theorem statusWord_toNat (s : State) :
    (statusWord s).toNat = s.busy.toNat + 2 * s.done.toNat + 4 * s.matched.toNat + 16 * s.err.toNat := by
  unfold statusWord flagBit
  generalize s.err = e
  generalize s.busy = b
  generalize s.done = d
  generalize s.matched = m
  revert e
  cases b <;> cases d <;> cases m <;> decide

end Sys2Proof.Machine
end

