-- ==== Sys2Proof/Laws/Step.lean ====
section
/-! SUPPORT. What a turn of the engine and a step can do, said once. -/

namespace Sys2Proof.Machine

/-- Everything a turn of the engine can do: nothing, a command, or the error outcome of an illegal word. -/
theorem engineTurn_cases (s : State) :
    (s.busy = false ∧ engineTurn s = .next s) ∨
    (∃ i, s.busy = true ∧ decode s.cmd = .command i ∧ engineTurn s = exec i s) ∨
    (∃ why, s.busy = true ∧ decode s.cmd = .illegal why ∧ engineTurn s = .next (errorOutcome errCmd s)) := by
  cases hb : s.busy with
  | false => exact .inl ⟨rfl, by simp [engineTurn, hb]⟩
  | true =>
    cases hd : decode s.cmd with
    | command i => exact .inr (.inl ⟨i, rfl, rfl, by simp [engineTurn, completeCommand, hb, hd]⟩)
    | illegal why => exact .inr (.inr ⟨why, rfl, rfl, by simp [engineTurn, completeCommand, hb, hd]⟩)

/-- Everything a step can do. -/
theorem step_cases {s t : State} (h : step s = .next t) :
    (s.agenda = [] ∧ engineTurn s = .next t) ∨
    ∃ rest, (s.agenda = .engine :: rest ∧ engineTurn { s with agenda := rest } = .next t) ∨
      (∃ a, s.agenda = .read a :: rest ∧ t = hostRead a { s with agenda := rest }) ∨
      (∃ a v, s.agenda = .write a v :: rest ∧ t = hostWrite a v { s with agenda := rest }) ∨
      (s.agenda = .reset :: rest ∧ t = resetCore { s with agenda := rest }) := by
  cases ha : s.agenda with
  | nil => exact .inl ⟨rfl, by simpa [step, ha] using h⟩
  | cons e rest =>
    refine .inr ⟨rest, ?_⟩
    cases e with
    | engine => exact .inl ⟨rfl, by simpa [step, ha] using h⟩
    | read a =>
      simp only [step, ha, Host.Outcome.next.injEq] at h
      exact .inr (.inl ⟨a, rfl, h.symm⟩)
    | write a v =>
      simp only [step, ha, Host.Outcome.next.injEq] at h
      exact .inr (.inr (.inl ⟨a, v, rfl, h.symm⟩))
    | reset =>
      simp only [step, ha, Host.Outcome.next.injEq] at h
      exact .inr (.inr (.inr ⟨rfl, h.symm⟩))

/-- The command word and the command of a fetch. -/
theorem withFetchWord_step (s : State) (w : Nat) :
    step (s.withFetchWord 32 w) = completeCommand (startCommand (tableWord 32 w) s) := by
  show engineTurn (startCommand (tableWord 32 w) s) = _
  simp [engineTurn]

end Sys2Proof.Machine
end

