-- ==== Sys2Proof/Laws/Frames.lean ====
section
/-! SUPPORT. What a completion leaves unchanged, canonical memories compared, and one step of a run. -/

namespace Sys2Proof.Machine

/-- An outcome record whose parts have the lengths of their buffers. -/
structure Result.Fits (o : Result) : Prop where
  str : o.str.length = 9
  digest : o.digest.length = 20
  key : ∀ k, o.keyWrite = some k → k.length ≤ 160

theorem Result.fits_error (e : BitVec 4) : Result.Fits { zeroResult with err := e } :=
  ⟨rfl, rfl, fun k h => by cases h⟩

theorem resultOf_fits {i : Instr} {s : State} (h : checkArgs i.op.toNat i.ksrc s = 0) :
    (resultOf i s).Fits :=
  ⟨resultOf_str_length h, resultOf_digest_length i s, resultOf_keyWrite_length h⟩

theorem complete_registersKept (o : Result) (s : State) : RegistersKept s (complete o s) := by
  constructor <;> simp

/-- A completion stores to KEY, CODE_STR and DIGEST only. -/
theorem complete_bytesKept {o : Result} (h : o.Fits) (s : State) :
    BytesKeptOutside [.key, .codeStr, .digest] s (complete o s) := fun a ha =>
  complete_read_outside o s h.str h.digest (ha _ (by simp)) (ha _ (by simp))
    fun k hk => ⟨h.key k hk, ha _ (by simp)⟩

/-- A completion that writes no key stores to CODE_STR and DIGEST only. -/
theorem complete_bytesKept_of_none {o : Result} (h : o.Fits) (hk : o.keyWrite = none) (s : State) :
    BytesKeptOutside [.codeStr, .digest] s (complete o s) := fun a ha =>
  complete_read_outside o s h.str h.digest (ha _ (by simp)) (ha _ (by simp))
    fun k h' => by rw [hk] at h'; cases h'

/-- A buffer not stored to is as before. -/
theorem BytesKeptOutside.buf {bs : List Buf} {s t : State} (h : BytesKeptOutside bs s t) {b : Buf}
    (hb : b ∉ bs) : t.buf b = s.buf b := by
  rw [State.buf_eq_iff]
  intro i hi
  refine h _ fun c hc => ?_
  cases hh : c.holds (b.base + i)
  · rfl
  · have hbh : b.holds (b.base + i) = true := (Buf.holds_iff _ _).mpr ⟨by omega, by omega⟩
    exact absurd (Buf.eq_of_holds hh hbh ▸ hc) hb

/-- Two memories in canonical form that read alike are one list. -/
theorem Memory.eq_of_read_eq {m m' : Memory} (h : m.wf) (h' : m'.wf) (e : ∀ a, m.read a = m'.read a) :
    m = m' := by
  have hm : ∀ c : Host.Cell, c ∈ m ↔ c ∈ m' := fun ⟨a, v⟩ => by
    rw [Memory.mem_iff_read h, Memory.mem_iff_read h', e]
  have nd : ∀ {m : Memory}, m.wf → m.Nodup := fun h => h.1.imp fun h => by rintro rfl; omega
  exact List.Perm.eq_of_pairwise (fun a b _ _ h1 h2 => by omega) h.1 h'.1
    ((List.perm_ext_iff_of_nodup (nd h) (nd h')).mpr hm)

/-- A completion does not look at the agenda or at what the host has read. -/
theorem complete_environment (o : Result) (s : State) (l : List Event) (r : Option Word) :
    complete o { s with agenda := l, readData := r } =
      { complete o s with agenda := l, readData := r } := by
  unfold complete
  cases o.keyWrite <;> rfl

/-- A run, one step on. -/
theorem run_next {s t : State} (h : step s = .next t) (k : Nat) :
    Host.Core.run Sys2Proof.core (k + 1) s = Host.Core.run Sys2Proof.core k t := by
  have h : Sys2Proof.core.step s = .next t := h
  simp only [Host.Core.run, h]

end Sys2Proof.Machine
end

