-- ==== Sys2Proof/Laws/PerInstr.lean ====
section
/-! SUPPORT. One lemma per command: its word is legal, and carries its OP and KSRC (30_encoding.md R80, R83). -/

namespace Sys2Proof.Laws.LegalEncoding

/-- The word of the command is legal, its fields are the command's, and its reserved fields are 0. -/
def Statement (i : Instr) : Prop :=
  legalWord (encode i) = true ∧ cmdOp (encode i) = i.op ∧ cmdKsrc (encode i) = i.ksrc ∧
    cmdRsv0 (encode i) = 0 ∧ cmdRsv1 (encode i) = 0

theorem b32dec : Statement .b32dec := by unfold Statement; decide

theorem hotp : Statement .hotp := by unfold Statement; decide

theorem hotpT : Statement .hotpT := by unfold Statement; decide

theorem totp : Statement .totp := by unfold Statement; decide

theorem totpT : Statement .totpT := by unfold Statement; decide

theorem verify : Statement .verify := by unfold Statement; decide

theorem verifyT : Statement .verifyT := by unfold Statement; decide

end Sys2Proof.Laws.LegalEncoding
end

