-- ==== Sys2Proof/Laws/Script.lean ====
section
/-! SUPPORT. The host at work (Machine/Script.lean): what one event does to an idle core and to a busy one, in
every schedule of the engine's turns. -/

namespace Sys2Proof.Machine

/-- One more step of a run that does not stop. -/
theorem runSteps_succ {s t : State} (h : step s = .next t) (n : Nat) : runSteps (n + 1) s = runSteps n t := by
  simp only [runSteps, run_next h]

@[simp] theorem runSteps_zero (s : State) : runSteps 0 s = some s := rfl

theorem runEvent_true (e : Event) (s : State) :
    runEvent true e s = runSteps 2 { s with agenda := .engine :: e :: s.agenda } := rfl

theorem runEvent_false (e : Event) (s : State) :
    runEvent false e s = runSteps 1 { s with agenda := e :: s.agenda } := rfl

/-- On an idle core the engine's turn before an event changes nothing, so the event is all that happens. -/
theorem runEvent_idle (turn : Bool) (e : Event) {s : State} (hb : s.busy = false) :
    runEvent turn e s = runSteps 1 { s with agenda := e :: s.agenda } := by
  cases turn with
  | false => rfl
  | true =>
    refine runSteps_succ (t := { s with agenda := e :: s.agenda }) ?_ 1
    show engineTurn { s with agenda := e :: s.agenda } = _
    simp [engineTurn, hb]

theorem Session.access_read_idle (a : Index) (h : Session) (hb : h.state.busy = false) :
    h.access (.read a) =
      some { state := { h.state with readData := some (portRead a h.state) }, turns := h.turns.tail } := by
  simp only [Session.access, runEvent_idle _ _ hb]
  rfl

theorem Session.access_write_idle (a : Index) (v : Word) (h : Session) (hb : h.state.busy = false) :
    h.access (.write a v) = some { state := hostWrite a v h.state, turns := h.turns.tail } := by
  have ha : step { h.state with agenda := .write a v :: h.state.agenda } = .next (hostWrite a v h.state) := rfl
  simp only [Session.access, runEvent_idle _ _ hb, runSteps_succ ha, runSteps_zero, Option.map_some]

/-- A read of an idle core returns the word at the index and changes no register. -/
theorem Session.read_idle (a : Index) (h : Session) (hb : h.state.busy = false) :
    h.read a = some (portRead a h.state,
      { state := { h.state with readData := some (portRead a h.state) }, turns := h.turns.tail }) := by
  simp [Session.read, Session.access_read_idle a h hb]

theorem Session.accesses_append (es fs : List Event) (h : Session) :
    h.accesses (es ++ fs) = (h.accesses es).bind (Session.accesses fs) := by
  induction es generalizing h with
  | nil => rfl
  | cons e es ih =>
    simp only [List.cons_append, Session.accesses]
    cases h.access e with
    | none => rfl
    | some g => simpa using ih g

/-- A buffer's entry, found from its index (20_memory.md R61). -/
theorem locate_index {b : Buf} {i : Nat} (hi : i < b.size) : locate (b.index i) = .byte b i := by
  have hn : (b.index i).toNat = b.base + i := by
    cases b <;> simp [Buf.index, Buf.base, Buf.size, Config.codeStrMax, Config.candMax, Config.digestMax,
      Config.textMax, Config.keyMax] at hi ⊢ <;> omega
  have hh : b.holds (b.index i).toNat = true := by rw [hn, Buf.holds_iff]; omega
  rcases locate_cases (b.index i) with ⟨r, _, hr⟩ | ⟨hl, _⟩
  · rw [hr] at hh
    cases r <;> cases b <;> exact absurd hh (by decide)
  · rw [hl, locateByte_of_holds hh, hn]
    simp

/-- Entries of a writable buffer of an idle core, written one after another, as one store of the sequence. -/
theorem Session.accesses_wrBytes {b : Buf} (hw : b.writable = true) (vs : List Byte) (i : Nat) (h : Session)
    (hb : h.state.busy = false) (hi : i + vs.length ≤ b.size) :
    h.accesses (wrBytes b i vs) =
      some { state := { h.state with mem := h.state.mem.writeBytes (b.base + i) vs },
             turns := h.turns.drop vs.length } := by
  induction vs generalizing i h with
  | nil => rfl
  | cons v vs ih =>
    have hi' : i < b.size := by simp only [List.length_cons] at hi; omega
    have hwr : hostWrite (b.index i) (v.setWidth 32) h.state =
        { h.state with mem := h.state.mem.write (b.base + i) v } := by
      simp [hostWrite, hb, locate_index hi', writeByte, hw]
    simp only [wrBytes, Session.accesses, Session.access_write_idle _ _ h hb, Option.bind_some, hwr]
    refine (ih (i + 1)
      { state := { h.state with mem := h.state.mem.write (b.base + i) v }, turns := h.turns.tail } hb
      (by simp only [List.length_cons] at hi; omega)).trans ?_
    simp [Memory.writeBytes, Nat.add_assoc, List.drop_tail]

/-- Entries of a buffer of an idle core, read one after another. -/
theorem Session.readBytes_idle (b : Buf) (n i : Nat) (h : Session) (hb : h.state.busy = false)
    (hi : i + n ≤ b.size) :
    ∃ r, Session.readBytes b i n h =
      some (h.state.mem.readBytes (b.base + i) n,
        { state := { h.state with readData := r }, turns := h.turns.drop n }) := by
  induction n generalizing i h with
  | zero => exact ⟨h.state.readData, rfl⟩
  | succ n ih =>
    have hr : (portRead (b.index i) h.state).setWidth 8 = h.state.mem.read (b.base + i) := by
      simp [portRead, locate_index (show i < b.size by omega), State.bufAt]
    obtain ⟨r, hn⟩ := ih (i + 1)
      { state := { h.state with readData := some (portRead (b.index i) h.state) }, turns := h.turns.tail } hb
      (by omega)
    refine ⟨r, ?_⟩
    simp only [Session.readBytes, Session.read_idle _ h hb, Option.bind_some, hn, Option.map_some, hr]
    simp [Memory.readBytes, Nat.add_assoc, List.drop_tail]

end Sys2Proof.Machine
end

