-- ==== Sys2Proof/Tests/Slice0.lean ====
section
/-! SUPPORT. The model's own tests. An expected value comes from the spec: the row of 95_test_vectors.md named
beside it, or the rule named beside it. The witnesses at the end show a state and operands that meet the
hypotheses of each statement together. -/

namespace Sys2Proof.Tests

open Sys2Proof.Machine

/-! ## Words -/

/-- R90, second condition: a bit of RSV0 (3, 7) or RSV1 (9, 31) set; V-ERR-5 to V-ERR-8, V-ERR-11, V-ERR-12. -/
theorem test_wf_refuses_reserved_bits :
    reservedClear 0x00000008#32 = false ∧ reservedClear 0x00000082#32 = false ∧
    reservedClear 0x00000202#32 = false ∧ reservedClear 0x80000002#32 = false ∧
    legalWord 0x0000000A#32 = false ∧ legalWord 0x00000202#32 = false ∧ legalWord 0x80000002#32 = false := by
  decide

/-- R90, first condition: OP 0, 5, 6, 7; V-ERR-1 to V-ERR-4. -/
theorem test_wf_refuses_illegal_op :
    opLegal 0#32 = false ∧ opLegal 5#32 = false ∧ opLegal 6#32 = false ∧ opLegal 7#32 = false ∧
    legalWord 0#32 = false ∧ legalWord 0x105#32 = false := by decide

/-- R90, third condition: B32DEC with KSRC = 1; V-ERR-9. -/
theorem test_wf_refuses_ksrc_on_b32dec : ksrcAllowed 0x101#32 = false ∧ legalWord 0x101#32 = false := by decide

/-- R83: B32DEC, RSV1 = 0, KSRC = 0, RSV0 = 0, OP = 001. -/
theorem test_decode_b32dec :
    decode (0b00000000000000000000000#23 ++ 0b0#1 ++ 0b00000#5 ++ 0b001#3) = .command .b32dec ∧
    decodeTableWord 32 0x00000001 = some .b32dec := by decide

/-- R83: HOTP, KSRC = 0, OP = 010. -/
theorem test_decode_hotp :
    decode (0b00000000000000000000000#23 ++ 0b0#1 ++ 0b00000#5 ++ 0b010#3) = .command .hotp ∧
    decodeTableWord 32 0x00000002 = some .hotp := by decide

/-- R83: HOTP.T, KSRC = 1, OP = 010. -/
theorem test_decode_hotpT :
    decode (0b00000000000000000000000#23 ++ 0b1#1 ++ 0b00000#5 ++ 0b010#3) = .command .hotpT ∧
    decodeTableWord 32 0x00000102 = some .hotpT := by decide

/-- R83: TOTP, KSRC = 0, OP = 011. -/
theorem test_decode_totp :
    decode (0b00000000000000000000000#23 ++ 0b0#1 ++ 0b00000#5 ++ 0b011#3) = .command .totp ∧
    decodeTableWord 32 0x00000003 = some .totp := by decide

/-- R83: TOTP.T, KSRC = 1, OP = 011. -/
theorem test_decode_totpT :
    decode (0b00000000000000000000000#23 ++ 0b1#1 ++ 0b00000#5 ++ 0b011#3) = .command .totpT ∧
    decodeTableWord 32 0x00000103 = some .totpT := by decide

/-- R83: VERIFY, KSRC = 0, OP = 100. -/
theorem test_decode_verify :
    decode (0b00000000000000000000000#23 ++ 0b0#1 ++ 0b00000#5 ++ 0b100#3) = .command .verify ∧
    decodeTableWord 32 0x00000004 = some .verify := by decide

/-- R83: VERIFY.T, KSRC = 1, OP = 100. -/
theorem test_decode_verifyT :
    decode (0b00000000000000000000000#23 ++ 0b1#1 ++ 0b00000#5 ++ 0b100#3) = .command .verifyT ∧
    decodeTableWord 32 0x00000104 = some .verifyT := by decide

/-- The words of V-ERR-1 to V-ERR-12, each rejected by the name of its condition of R90. -/
theorem test_decode_rejects_by_name :
    decode 0#32 = .illegal .illegalOp ∧ decode 5#32 = .illegal .illegalOp ∧
    decode 6#32 = .illegal .illegalOp ∧ decode 7#32 = .illegal .illegalOp ∧
    decode 8#32 = .illegal .reservedBits ∧ decode 0xA#32 = .illegal .reservedBits ∧
    decode 0x10#32 = .illegal .reservedBits ∧ decode 0x82#32 = .illegal .reservedBits ∧
    decode 0x101#32 = .illegal .ksrcOnDecode ∧ decode 0x105#32 = .illegal .illegalOp ∧
    decode 0x202#32 = .illegal .reservedBits ∧ decode 0x80000002#32 = .illegal .reservedBits := by decide

/-! ## One step of each command -/

/-- The text of a Base32 string loaded, as LDTEXT leaves it (R96). -/
def withText (T : List Byte) (s : State) : State :=
  { s with mem := s.mem.writeBytes Buf.text.base T, textLen := BitVec.ofNat 32 T.length }

/-- A key loaded, as LDKEY leaves it (R96). -/
def withKey (k : List Byte) (s : State) : State :=
  { s with mem := s.mem.writeBytes Buf.key.base k, keyLen := BitVec.ofNat 32 k.length }

/-- A candidate loaded, as LDCAND leaves it (R96). -/
def withCand (c : List Byte) (s : State) : State :=
  { s with mem := s.mem.writeBytes Buf.cand.base c, candLen := BitVec.ofNat 32 c.length }

/-- What `f` sees in the state one step after the command word `w` was accepted. -/
def after {α : Type} (w : Nat) (f : State → α) (s : State) : Option α :=
  match step (s.withFetchWord 32 w) with
  | .next t => some (f t)
  | .fault _ => none
  | .refused _ => none

/-- ASCII `12345678901234567890`. -/
def rfcKey : List Byte :=
  [0x31, 0x32, 0x33, 0x34, 0x35, 0x36, 0x37, 0x38, 0x39, 0x30] ++
    [0x31, 0x32, 0x33, 0x34, 0x35, 0x36, 0x37, 0x38, 0x39, 0x30]

/-- `MY` (V-B32-21). -/
def textMY : List Byte := [0x4D, 0x59]

/-- `JBSWY3DPEHPK3PXP` (V-B32-14). -/
def textJBSWY : List Byte :=
  [0x4A, 0x42, 0x53, 0x57, 0x59, 0x33, 0x44, 0x50] ++ [0x45, 0x48, 0x50, 0x4B, 0x33, 0x50, 0x58, 0x50]

/-- `GEZDGNBVGY3TQOJQGEZDGNBVGY3TQOJQ` (V-B32-26). -/
def textGEZDG : List Byte :=
  [0x47, 0x45, 0x5A, 0x44, 0x47, 0x4E, 0x42, 0x56] ++ [0x47, 0x59, 0x33, 0x54, 0x51, 0x4F, 0x4A, 0x51] ++
    [0x47, 0x45, 0x5A, 0x44, 0x47, 0x4E, 0x42, 0x56] ++ [0x47, 0x59, 0x33, 0x54, 0x51, 0x4F, 0x4A, 0x51]

set_option maxRecDepth 100000

/-- V-B32-14, and the zero tail of R106: KEY held `7` at entry 10. -/
theorem test_b32dec_decodes :
    after 1 (fun t => (t.keyLen, (t.buf .key).take 11, t.err)) (withText textJBSWY (withKey rfcKey .reset)) =
      some (10, [0x48, 0x65, 0x6C, 0x6C, 0x6F, 0x21, 0xDE, 0xAD, 0xBE, 0xEF, 0x00], 0) := by decide +kernel

/-- R206, R208: TEXTLEN = 257 is ERR_LEN, and the key stays. -/
theorem test_b32dec_length_error :
    after 1 (fun t => (t.err, t.keyLen, t.bufAt .key 0))
      { withKey rfcKey .reset with textLen := 257 } = some (5, 20, 0x31) := by decide +kernel

/-- V-HOTP-22: DIGITS = 9, the leading zero kept. -/
theorem test_hotp_nine_digits :
    after 2 (fun t => (t.ctr, t.trunc, t.code, t.buf .codeStr))
      { withKey rfcKey .reset with counter := 1, digits := 9 } =
      some (1, 0x41397EEA, 94287082, [0x30, 0x39, 0x34, 0x32, 0x38, 0x37, 0x30, 0x38, 0x32]) := by
  decide +kernel

/-- Program P7, line 12: the key is the single byte 0x66, and goes to KEY. -/
theorem test_hotpT_decodes_then_generates :
    after 0x102 (fun t => (t.code, t.keyLen, t.bufAt .key 0, t.bufAt .key 1))
      (withText textMY (withKey rfcKey .reset)) = some (531249, 1, 0x66, 0x00) := by decide +kernel

/-- Program P7, lines 17 to 23, for HOTP.T: an error outcome does not decode (R203, R208). -/
theorem test_hotpT_hash_error :
    after 0x102 (fun t => (t.err, t.keyLen)) { withText textMY (withKey rfcKey .reset) with hash := 5 } =
      some (2, 20) := by decide +kernel

/-- V-TOTP-1: 59 s. -/
theorem test_totp_at_59_seconds :
    after 3 (fun t => (t.ctr, t.code, t.counter)) { withKey rfcKey .reset with time := 59000, counter := 7 } =
      some (1, 287082, 7) := by decide +kernel

/-- V-TOTP-7: the code of the source's scenario secret is `996554`. -/
theorem test_totpT_scenario :
    after 0x103 (fun t => (t.code, t.keyLen)) { withText textJBSWY .reset with time := 59000 } =
      some (996554, 10) := by decide +kernel

/-- R205: STEP = 0 is ERR_STEP, and leaves no result. -/
theorem test_totpT_step_error :
    after 0x103 (fun t => (t.err, t.ctr, t.keyLen))
      { withText textJBSWY .reset with time := 59000, stepSecs := 0 } = some (4, 0, 0) := by decide +kernel

/-- V-VER-27: c0 = 0, WINDOW = 1, the code of counter 1; CODE is not left behind (R185). -/
theorem test_verify_accepts_in_window :
    after 4 (fun t => (t.matched, t.ctr, t.code)) { withCand [0x32, 0x38, 0x37, 0x30, 0x38, 0x32]
      (withKey rfcKey .reset) with time := 0, window := 1 } = some (true, 0, 0) := by decide +kernel

/-- V-VER-16: CANDLEN = 2^32 - 1 is no error, and no match. -/
theorem test_verify_rejects_other_length :
    after 4 (fun t => (t.matched, t.err)) { withCand [0x30, 0x35, 0x30, 0x34, 0x37, 0x31]
      (withKey rfcKey .reset) with time := 1111111111000, candLen := 0xFFFFFFFF } = some (false, 0) := by
  decide +kernel

/-- R204: DIGITS = 10 is ERR_DIGITS, and the key stays (program P4, lines 8 to 15). -/
theorem test_hotp_digits_error :
    after 2 (fun t => (t.err, t.code, t.bufAt .key 0, t.digits))
      { withKey rfcKey .reset with counter := 1, digits := 10 } = some (3, 0, 0x31, 10) := by decide +kernel

/-- R206: KEYLEN = 161 is ERR_LEN. -/
theorem test_totp_length_error :
    after 3 (fun t => (t.err, t.ctr)) { State.reset with time := 59000, keyLen := 161 } = some (5, 0) := by
  decide +kernel

/-- V-VER-22 with the key given as its Base32 text (V-B32-26). -/
theorem test_verifyT_accepts :
    after 0x104 (fun t => (t.matched, t.ctr, t.keyLen)) { withCand [0x32, 0x38, 0x37, 0x30, 0x38, 0x32]
      (withText textGEZDG .reset) with time := 59000, window := 0 } = some (true, 1, 20) := by decide +kernel

/-- V-VER-9's law with TEXT: a candidate of another length never matches. -/
theorem test_verifyT_rejects_other_length :
    after 0x104 (fun t => (t.matched, t.err)) { withCand [0x38, 0x37, 0x30, 0x38, 0x32]
      (withText textGEZDG .reset) with time := 59000 } = some (false, 0) := by decide +kernel

/-- V-ERR-1: the zero word is accepted, and completes with ERR_CMD. -/
theorem test_illegal_word_completes :
    after 0 (fun t => (t.cmd, portRead 0x001 t)) State.reset = some (0, 0x12) := by decide +kernel

/-- V-SHA-2: `abc`. -/
theorem test_sha1_abc :
    sha1 [0x61, 0x62, 0x63] = [0xA9, 0x99, 0x3E, 0x36, 0x47, 0x06, 0x81, 0x6A, 0xBA, 0x3E] ++
      [0x25, 0x71, 0x78, 0x50, 0xC2, 0x6C, 0x9C, 0xD0, 0xD8, 0x9D] := by decide +kernel

/-- R63, R42, R43: a byte location takes bits 7:0, a read-only one nothing; R240: nothing while BUSY. -/
theorem test_port_write :
    portRead 0x29F (hostWrite 0x29F 0xABCDEF12 .reset) = 0x12 ∧
    hostWrite 0x020 0x39 .reset = State.reset ∧
    hostWrite 0x003 9 (startCommand 3 .reset) = startCommand 3 .reset ∧
    portRead 0x009 (hostWrite 0x009 0x01234567 .reset) = 0x01234567 := by decide +kernel

/-! ## The host's notation (R96) -/

/-- Program P7, lines 11 to 16: the engine's turn comes between two reads of STATUS, WAIT has the second word, RDSTR
the code, and RDKEY the one decoded byte. -/
theorem test_host_wait_rdStr_rdKey :
    (runProgram [.wait, .rdStr 6, .rdKey]
      { state := startCommand 0x102 (withText textMY .reset), turns := [false, true] }).map (·.1) =
      some [.word 0x02, .bytes [0x35, 0x33, 0x31, 0x32, 0x34, 0x39], .bytes [0x66]] := by decide +kernel

/-- R96: WAIT on a core with DONE = 0 and no command in flight reads for ever, RDKEY needs KEYLEN at most 160, and
LDTEXT at most 256 characters. -/
theorem test_host_no_value :
    HostOp.wait.perform { state := .reset, turns := [false, true] } = none ∧
    HostOp.rdKey.perform { state := { State.reset with keyLen := 161 }, turns := [] } = none ∧
    (HostOp.ldText (rep 0x41 257)).perform { state := .reset, turns := [] } = none := by decide +kernel

/-- R96: LDTEXT stores the characters and the length, RD64 CTR puts the halves together (program P7, line 10). -/
theorem test_host_loads_and_rd64 :
    (runProgram [.ldText textMY, .rd 0x101, .rd 0x00A, .rd64Ctr]
      { state := { State.reset with ctr := 0x0000000200000001 }, turns := [true] }).map (·.1) =
      some [.nothing, .word 0x59, .word 2, .dword 0x0000000200000001] := by decide +kernel

/-! ## Witnesses -/

theorem witness_DecodeEncodeAgree : ∃ (i : Instr) (w : Word), i.wf = true ∧ decode w = .command i :=
  ⟨.verifyT, 0x104, by decide⟩

/-- Every word accepted from reset: illegal ones of each clause and legal ones among them. -/
theorem witness_IllegalWordsEndInErrCmd :
    ∀ w : Word, (startCommand w State.reset).busy = true ∧ (startCommand w State.reset).cmd = w :=
  fun _ => ⟨rfl, rfl⟩

theorem witness_StepRunsTheDecodedCommand :
    (∃ (i : Instr) (s : State), s.busy = true ∧ decode s.cmd = .command i ∧ s.agenda = []) ∧
    ∃ (i : Instr) (s : State) (rest : List Event),
      s.busy = true ∧ decode s.cmd = .command i ∧ s.agenda = .engine :: rest :=
  ⟨⟨.totp, startCommand 3 .reset, by decide⟩,
    ⟨.verifyT, State.reset.withFetchWord 32 0x104, [], by decide⟩⟩

theorem witness_EngineTurnIdleWithoutBusy :
    State.reset.busy = false ∧ State.reset.agenda = [] ∧
    ({ State.reset with agenda := [.engine, .read 1] } : State).agenda = .engine :: [.read 1] := by decide

/-- Every clause at the ends of its range, and no index in two of them. -/
theorem witness_HostReadReturnsTheRegister :
    ({ State.reset with agenda := [.read 0x2FF] } : State).agenda = .read 0x2FF :: [] ∧
    (∀ n ∈ [0x020, 0x028, 0x030, 0x03F, 0x040, 0x053, 0x100, 0x1FF, 0x200, 0x29F], byteIndex n = true) ∧
    (∀ n ∈ [0x00D, 0x00F, 0x014, 0x01F, 0x029, 0x02F, 0x054, 0x0FF, 0x2A0, 0x3FF],
      reservedIndex n = true ∧ byteIndex n = false) ∧
    ∀ n ∈ List.range 0x00D ++ [0x010, 0x011, 0x012, 0x013], byteIndex n = false ∧ reservedIndex n = false := by
  decide

/-- Each clause; the RW ranges at their ends, and no index in both. -/
theorem witness_HostWriteStoresAtItsIndexOnly :
    (∃ s : State, s.agenda = .write 0x29F 7 :: [] ∧ s.busy = true) ∧
    (∃ s : State, s.agenda = .write 0x000 7 :: [] ∧ s.busy = false) ∧
    (∃ s : State, s.agenda = .write 0x29F 7 :: [] ∧ s.busy = false ∧ (0x29F : Index) ≠ 0x000) ∧
    (∀ n ∈ [0x002, 0x00C], rwScalar n = true ∧ rwByte n = false) ∧
    (∀ n ∈ [0x030, 0x03F, 0x100, 0x1FF, 0x200, 0x29F], rwByte n = true ∧ rwScalar n = false) ∧
    ∀ n ∈ [0x001, 0x00D, 0x020, 0x028, 0x02F, 0x040, 0x0FF, 0x2A0, 0x3FF], rwByte n = false ∧ rwScalar n = false :=
  ⟨⟨{ startCommand 2 .reset with agenda := [.write 0x29F 7] }, by decide⟩,
    ⟨{ State.reset with agenda := [.write 0x000 7] }, by decide⟩,
    ⟨{ State.reset with agenda := [.write 0x29F 7] }, by decide⟩, by decide, by decide, by decide⟩

theorem witness_BusyDropsEveryWrite :
    ∃ s : State, s.busy = true ∧ s.agenda = .write 0x200 0xFF :: [] :=
  ⟨{ startCommand 2 .reset with agenda := [.write 0x200 0xFF] }, by decide⟩

theorem witness_ReadOnlyAndReservedIgnoreWrites :
    (∃ s : State, s.agenda = .write 0x001 0xFF :: []) ∧
    (∀ n ∈ [0x001, 0x010, 0x013, 0x020, 0x028, 0x040, 0x053], readOnlyIndex n = true ∧ reservedIndex n = false) ∧
    ∀ n ∈ [0x00D, 0x00F, 0x014, 0x01F, 0x029, 0x02F, 0x054, 0x0FF, 0x2A0, 0x3FF],
      reservedIndex n = true ∧ readOnlyIndex n = false :=
  ⟨⟨{ State.reset with agenda := [.write 0x001 0xFF] }, by decide⟩, by decide, by decide⟩

/-- Both registers and both orders of the halves. -/
theorem witness_HalvesFormOneValue :
    (∃ s : State, s.busy = false ∧ s.agenda = .write 0x006 1 :: .write 0x007 2 :: []) ∧
    (∃ s : State, s.busy = false ∧ s.agenda = .write 0x007 2 :: .write 0x006 1 :: []) ∧
    (∃ s : State, s.busy = false ∧ s.agenda = .write 0x008 1 :: .write 0x009 2 :: []) ∧
    ∃ s : State, s.busy = false ∧ s.agenda = .write 0x009 2 :: .write 0x008 1 :: [] :=
  ⟨⟨{ State.reset with agenda := [.write 0x006 1, .write 0x007 2] }, by decide⟩,
    ⟨{ State.reset with agenda := [.write 0x007 2, .write 0x006 1] }, by decide⟩,
    ⟨{ State.reset with agenda := [.write 0x008 1, .write 0x009 2] }, by decide⟩,
    ⟨{ State.reset with agenda := [.write 0x009 2, .write 0x008 1] }, by decide⟩⟩

theorem witness_ResetRestoresTheTable : ∃ s : State, s.agenda = .reset :: [] :=
  ⟨{ withKey rfcKey .reset with agenda := [.reset] }, rfl⟩

theorem witness_ResetAbortsTheCommandInFlight : ∃ s : State, s.busy = true ∧ s.agenda = .reset :: [] :=
  ⟨{ startCommand 3 .reset with agenda := [.reset] }, by decide⟩

theorem witness_StartWritesCmdAndFlagsOnly :
    (∃ s : State, s.busy = false ∧ s.agenda = .write 0x000 3 :: []) ∧
    ∃ s : State, s.busy = true ∧ s.agenda = .write 0x000 3 :: [] :=
  ⟨⟨{ State.reset with agenda := [.write 0x000 3] }, by decide⟩,
    ⟨{ startCommand 2 .reset with agenda := [.write 0x000 3] }, by decide⟩⟩

/-- A command that writes the key and one that does not. -/
theorem witness_EngineStepIsTheSpecsExec :
    (startCommand 1 (withText textMY State.reset)).busy = true ∧
    (specExec (startCommand 1 (withText textMY State.reset))).keyWrite = some [0x66] ∧
    (specExec (startCommand 0x101 State.reset)).keyWrite = none := by decide +kernel

/-- One busy state for each line of `Check`, at the boundary of its condition (V-ERR). -/
theorem witness_CheckDecidesTheErrorCode :
    check (startCommand 0x202 .reset) = 1 ∧ check (startCommand 5 .reset) = 1 ∧
    check (startCommand 0x101 .reset) = 1 ∧ check (startCommand 2 { State.reset with hash := 1 }) = 2 ∧
    check (startCommand 2 { State.reset with digits := 0 }) = 3 ∧
    check (startCommand 2 { State.reset with digits := 10 }) = 3 ∧
    check (startCommand 3 { State.reset with stepSecs := 0 }) = 4 ∧
    check (startCommand 1 { State.reset with textLen := 257 }) = 5 ∧
    check (startCommand 2 { State.reset with keyLen := 161 }) = 5 ∧
    check (startCommand 2 { State.reset with keyLen := 160, textLen := 257, digits := 9 }) = 0 ∧
    (startCommand 5 State.reset).busy = true := by decide

theorem witness_B32decDecodesTheText : ∃ s : State, s.textLen.toNat ≤ 256 ∧ s.textLen = 256 :=
  ⟨{ State.reset with textLen := 256 }, by decide⟩

theorem legalCode_reset (d : Word) (h : 1 ≤ d.toNat ∧ d.toNat ≤ 9) : LegalCode { State.reset with digits := d } :=
  ⟨rfl, h⟩

theorem witness_HotpGeneratesTheCode :
    ∃ s : State, LegalCode s ∧ s.keyLen.toNat ≤ 160 ∧ s.digits = 1 ∧ s.keyLen = 160 :=
  ⟨{ State.reset with digits := 1, keyLen := 160 }, ⟨rfl, by decide⟩, by decide⟩

theorem witness_HotpTextGeneratesTheCode :
    ∃ s : State, LegalCode s ∧ s.textLen.toNat ≤ 256 ∧ s.digits = 9 ∧ s.textLen = 256 :=
  ⟨{ State.reset with digits := 9, textLen := 256 }, ⟨rfl, by decide⟩, by decide⟩

theorem witness_TotpGeneratesTheCode :
    ∃ s : State, LegalCode s ∧ s.stepSecs ≠ 0 ∧ s.keyLen.toNat ≤ 160 ∧ s.stepSecs = 1 :=
  ⟨{ State.reset with digits := 9, keyLen := 160, stepSecs := 1 }, ⟨rfl, by decide⟩, by decide⟩

theorem witness_TotpTextGeneratesTheCode :
    ∃ s : State, LegalCode s ∧ s.stepSecs ≠ 0 ∧ s.textLen.toNat ≤ 256 ∧ s.textLen = 0 :=
  ⟨State.reset, ⟨rfl, by decide⟩, by decide⟩

theorem witness_VerifyDecidesTheMatch :
    ∃ s : State, LegalCode s ∧ s.stepSecs ≠ 0 ∧ s.keyLen.toNat ≤ 160 ∧ s.window = 0 :=
  ⟨{ State.reset with digits := 1, window := 0 }, ⟨rfl, by decide⟩, by decide⟩

theorem witness_VerifyTextDecidesTheMatch :
    ∃ s : State, LegalCode s ∧ s.stepSecs ≠ 0 ∧ s.textLen.toNat ≤ 256 ∧ s.window = 0xFFFFFFFF :=
  ⟨{ State.reset with digits := 9, window := 0xFFFFFFFF, textLen := 256 }, ⟨rfl, by decide⟩, by decide⟩

theorem witness_DigitsErrorIffOutOfRange :
    ∃ s : State, s.hash = 0 ∧ Instr.verifyT ∈ codeCommands ∧ s.digits = 10 :=
  ⟨{ State.reset with digits := 10 }, by decide⟩

theorem witness_StepErrorIffZero :
    ∃ s : State, LegalCode s ∧ Instr.verifyT ∈ timeCommands ∧ s.stepSecs = 0 :=
  ⟨{ State.reset with stepSecs := 0 }, ⟨rfl, by decide⟩, by decide⟩

theorem witness_LengthErrorIffBeyondBuffer :
    ∃ s : State, LegalCode s ∧ s.stepSecs ≠ 0 ∧ s.textLen = 257 ∧ s.keyLen = 161 :=
  ⟨{ State.reset with textLen := 257, keyLen := 161 }, ⟨rfl, by decide⟩, by decide⟩

theorem witness_ErrorOutcomeWritesZeros : ∃ s : State, s.busy = true ∧ check s ≠ 0 :=
  ⟨startCommand 7 .reset, by decide⟩

theorem witness_DecodeResultGoesToKey :
    Instr.b32dec ∈ decodeCommands ∧ Instr.verifyT ∈ decodeCommands ∧
    checkArgs 1 false (withText textMY State.reset) = 0 ∧
    checkArgs 4 true { State.reset with stepSecs := 0 } ≠ 0 := by decide

theorem witness_VerifyLeavesNoCode :
    Instr.verifyT ∈ [Instr.verify, .verifyT] ∧ (rep 0x39 16).length = 16 ∧
    checkArgs 4 true State.reset = 0 := by decide

/-- The state one command later. -/
def done (i : Instr) (s : State) : State := complete (resultOf i s) s

/-- The state `t` of a generated code, with that code as the candidate, at the time `now`. -/
def presented (t : State) (now : DWord) : State :=
  { t with
    candLen := t.digits
    time := now
    mem := t.mem.writeBytes Buf.cand.base (t.buf .codeStr) }

theorem presented_cand (t : State) (now : DWord) (i : Nat) (h : i < 9) :
    (presented t now).bufAt .cand i = t.bufAt .codeStr i := by
  have hl : i < (t.buf .codeStr).length := by rw [State.buf_length]; exact h
  show (t.mem.writeBytes Buf.cand.base (t.buf .codeStr)).read (Buf.cand.base + i) = _
  rw [Memory.read_writeBytes_inside _ _ _ i hl, State.buf_getElem]

/-- The reset state at the time `now`: an empty key and an empty text, both the empty secret. -/
def atTime (now : DWord) : State := { State.reset with time := now }

/-- A code generated from the empty secret at one time and presented at another, with either form of the secret
before and after: all the hypotheses but those on the times. -/
theorem presented_meets (g v : Instr) (hg : g ∈ [Instr.totp, .totpT]) (past now : DWord) :
    exec g (atTime past) = .next (done g (atTime past)) ∧ (done g (atTime past)).err = 0 ∧
    TakesSecret g [] (atTime past) ∧ TakesSecret v [] (presented (done g (atTime past)) now) ∧
    SameCodeConfig (done g (atTime past)) (presented (done g (atTime past)) now) ∧
    (presented (done g (atTime past)) now).candLen = (presented (done g (atTime past)) now).digits ∧
    ∀ i, i < (presented (done g (atTime past)) now).digits.toNat →
      (presented (done g (atTime past)) now).bufAt .cand i = (done g (atTime past)).bufAt .codeStr i := by
  have hk : (done g (atTime past)).keyLen = 0 := by
    simp only [List.mem_cons, List.not_mem_nil, or_false] at hg
    rcases hg with rfl | rfl <;> rfl
  have ht : (done g (atTime past)).textLen = 0 := by rw [done, complete_textLen]; rfl
  have hd : (done g (atTime past)).digits = 6 := by rw [done, complete_digits]; rfl
  refine ⟨exec_of_check_eq_zero ?_, by rw [done, complete_err, resultOf_err],
    ⟨fun _ => ⟨Nat.zero_le _, rfl⟩, fun _ => ⟨Nat.zero_le _, rfl⟩⟩, ⟨fun _ => ?_, fun _ => ?_⟩, ⟨rfl, rfl⟩, rfl, fun i h => ?_⟩
  · simp only [List.mem_cons, List.not_mem_nil, or_false] at hg
    rcases hg with rfl | rfl <;> rfl
  · have ht : (presented (done g (atTime past)) now).textLen = 0 := ht
    rw [textString, ht]
    exact ⟨by decide, rfl⟩
  · have hk : (presented (done g (atTime past)) now).keyLen = 0 := hk
    rw [keyString, hk]
    exact ⟨by decide, rfl⟩
  · have h : i < (done g (atTime past)).digits.toNat := h
    rw [hd] at h
    exact presented_cand _ _ i (Nat.lt_trans h (by decide))

/-- Every pair of commands: a TOTP of the reset state (program P6), its code presented at the same time. -/
theorem witness_VerifyAcceptsTheCurrentCode :
    ∀ g ∈ [Instr.totp, .totpT], ∀ v ∈ [Instr.verify, .verifyT], ∃ (s t u : State) (k : List Byte),
      exec g s = .next t ∧ t.err = 0 ∧ TakesSecret g k s ∧ TakesSecret v k u ∧
      SameCodeConfig t u ∧ SameTime t u ∧ u.candLen = u.digits ∧
      ∀ i, i < u.digits.toNat → u.bufAt .cand i = t.bufAt .codeStr i := fun g hg v _ => by
  obtain ⟨h1, h2, h3, h4, h5, h6, h7⟩ := presented_meets g v hg 0 0
  exact ⟨_, _, _, _, h1, h2, h3, h4, h5, ⟨by rw [done, complete_time]; rfl, rfl⟩, h6, h7⟩

/-- Every pair of commands, one time step later and one time step earlier, at the edge of WINDOW = 1. -/
theorem witness_VerifyAcceptsCodesWithinTheWindow :
    ∀ g ∈ [Instr.totp, .totpT], ∀ v ∈ [Instr.verify, .verifyT], ∀ later : Bool,
      ∃ (s t u : State) (k : List Byte) (n : Nat),
        exec g s = .next t ∧ t.err = 0 ∧ TakesSecret g k s ∧ TakesSecret v k u ∧
        SameCodeConfig t u ∧ u.stepSecs = t.stepSecs ∧ u.candLen = u.digits ∧
        (∀ i, i < u.digits.toNat → u.bufAt .cand i = t.bufAt .codeStr i) ∧ n = 1 ∧ n ≤ u.window.toNat ∧
        (later = true → u.time.toNat = t.time.toNat + 1000 * t.stepSecs.toNat * n) ∧
        (later = false → u.time.toNat + 1000 * t.stepSecs.toNat * n = t.time.toNat) := fun g hg v _ later => by
  have hw : ∀ s, (done g s).window = s.window := fun s => by rw [done, complete_window]
  have ht : ∀ s, (done g s).time = s.time := fun s => by rw [done, complete_time]
  have hs : ∀ s, (done g s).stepSecs = s.stepSecs := fun s => by rw [done, complete_stepSecs]
  cases later with
  | true =>
    obtain ⟨h1, h2, h3, h4, h5, h6, h7⟩ := presented_meets g v hg 0 30000
    refine ⟨_, _, _, _, 1, h1, h2, h3, h4, h5, rfl, h6, h7, rfl, ?_, fun _ => ?_, (fun h => nomatch h)⟩
    · show 1 ≤ (done g (atTime 0)).window.toNat
      rw [hw]; decide
    · rw [ht, hs]; rfl
  | false =>
    obtain ⟨h1, h2, h3, h4, h5, h6, h7⟩ := presented_meets g v hg 30000 0
    refine ⟨_, _, _, _, 1, h1, h2, h3, h4, h5, rfl, h6, h7, rfl, ?_, (fun h => nomatch h), fun _ => ?_⟩
    · show 1 ≤ (done g (atTime 30000)).window.toNat
      rw [hw]; decide
    · rw [ht, hs]; rfl

theorem witness_TextKeyCommandIsDecodeThenByteKeyCommand :
    ∀ p ∈ [(Instr.hotpT, Instr.hotp), (.totpT, .totp), (.verifyT, .verify)],
      (withText textMY State.reset).mem.wf ∧
        checkArgs p.1.op.toNat true (withText textMY State.reset) = 0 := by decide +kernel

theorem witness_TotpIsHotpOnTheDerivedCounter : ∃ s : State, s.stepSecs ≠ 0 ∧ s.stepSecs = 1 :=
  ⟨{ State.reset with stepSecs := 1 }, by decide⟩

/-- Pairs of states that differ where the command does not read: COUNTER and CAND, HASH, and for VERIFY the entry of
CAND at DIGITS, and with CANDLEN other than DIGITS every entry. -/
theorem witness_CommandReadsOnlyItsRow :
    ReadsSame .totpT State.reset { State.reset with counter := 7, mem := [(0x030, 0x39), (0x100, 0x4D)] } ∧
    ReadsSame .b32dec State.reset { State.reset with hash := 5, mem := [(0x100, 0x4D)] } ∧
    ReadsSame .verify { State.reset with candLen := 6 }
      { State.reset with candLen := 6, mem := [(0x036, 0x39)] } ∧
    ReadsSame .verify State.reset { State.reset with mem := [(0x030, 0x39)] } :=
  ⟨⟨⟨rfl, rfl⟩, ⟨rfl, rfl⟩, rfl, fun i h _ => absurd h (by simp [State.reset])⟩,
    ⟨rfl, fun i h _ => absurd h (by simp [State.reset])⟩,
    ⟨⟨rfl, rfl⟩, ⟨rfl, rfl⟩, ⟨rfl, rfl, fun _ i h _ => by
      have h : i < 6 := h
      have hn : 0x036 ≠ Buf.cand.base + i := by show 0x036 ≠ 0x030 + i; omega
      simp [State.bufAt, State.reset, Memory.read, hn]⟩,
      rfl, fun i h _ => absurd h (by simp [State.reset])⟩,
    ⟨rfl, rfl⟩, ⟨rfl, rfl⟩, ⟨rfl, rfl, fun h => absurd h (by decide)⟩,
    rfl, fun i h _ => absurd h (by simp [State.reset])⟩

theorem witness_EveryPlacementGivesTheSameOutcome :
    (startCommand 3 State.reset).busy = true ∧
    ∀ e ∈ [Event.read 0x001, .write 0x006 7, .write 0x000 3], e.isAccess = true := by decide

theorem witness_CompletionComesWithinTheAgenda :
    ∃ s : State, s.busy = true ∧ Event.reset ∉ s.agenda ∧ s.agenda = [.read 0x001, .write 0x000 3] :=
  ⟨{ startCommand 3 .reset with agenda := [.read 0x001, .write 0x000 3] }, by decide⟩

theorem started_inv (v : Word) : (startCommand v State.reset).Inv := by
  constructor <;> simp [State.reset, Memory.wf]

/-- A command in flight, no read and some reads before the engine's turn; an idle core, each load and read at the
end of its range. -/
theorem witness_HostOperationsHaveTheirValues :
    (∃ (s : State) (j k : Nat), s.Inv ∧ s.busy = true ∧ 1 ≤ j ∧ j ≤ k) ∧
    ∃ s : State, s.busy = false ∧ 9 ≤ 9 ∧ s.keyLen.toNat ≤ 160 ∧ s.keyLen = 160 ∧
      (rep 0x41 256).length ≤ 256 ∧ (rep 1 160).length ≤ 160 :=
  ⟨⟨startCommand 3 .reset, 1, 1, started_inv 3, rfl, by decide, by decide⟩,
    { State.reset with keyLen := 160 }, by decide⟩

theorem witness_ResultsStableUntilNextStart :
    ∃ (s : State) (e : Event) (rest : List Event), s.busy = false ∧ s.agenda = e :: rest ∧ e ≠ .reset ∧
      ∀ v, e ≠ .write 0x000 v :=
  ⟨{ withKey rfcKey .reset with agenda := [.write 0x003 9] }, .write 0x003 9, [], rfl, rfl, by decide,
    fun v h => by injection h with h _; exact absurd h (by decide)⟩

theorem witness_StepKeepsTheInvariants : ∃ s t : State, s.Inv ∧ step s = .next t ∧ t.done = true :=
  ⟨startCommand 7 .reset, errorOutcome errCmd (startCommand 7 .reset), started_inv 7, rfl, by simp⟩

theorem witness_Base32ClosedForm :
    0 < 5 * ([0x4D, 0x59].filterMap charVal).length / 8 ∧
    ([0x4D, 0x59].filterMap charVal).length = 2 := by decide

theorem witness_Base32Consequences :
    (rep 0x37 256).length ≤ 256 ∧ ∀ ch ∈ [0x30#8, 0x31#8, 0x38#8, 0x39#8, 0x3D#8], charVal ch = none := by
  decide

theorem witness_PadEndsInTheBitLength : ([0x61, 0x62, 0x63] : List Byte).length < 2 ^ 61 ∧ 0 < 8 ∧ 7 < 8 := by decide

/-- A block, a message, and every round and byte range at its ends. -/
theorem witness_Sha1FollowsItsRecurrences :
    (rep 0x61 64).length = 64 ∧ (rep 0x61 64).length < 2 ^ 61 ∧ 15 < 16 ∧ (16 ≤ 16 ∧ 79 < 80) ∧ 31 < 32 ∧
    1 < ((rep 0x61 64).length + 8) / 64 + 1 ∧ 19 < 20 := by decide

/-- Each clause at the ends of its range, and no length in two clauses that differ. -/
theorem witness_HmacKeyCases :
    (1 ≤ (rep 1 1).length ∧ (rep 1 1).length ≤ 63) ∧ (1 ≤ (rep 1 63).length ∧ (rep 1 63).length ≤ 63) ∧
    (rep 1 64).length = 64 ∧ 65 ≤ (rep 1 65).length ∧ (rep 1 63).length < 64 ∧
    (rep 1 65).length > 64 ∧ (rep 1 64).length ≤ 64 ∧ 63 < 64 := by decide

theorem witness_DynTruncReadsFourBytes : (rep 0xFF 20).length = 20 := by decide

theorem witness_CodeValueIsTheRemainder :
    (0x7FFFFFFF#32).toNat < 2 ^ 31 ∧ 1 ≤ 1 ∧ 1 ≤ 9 ∧ 9 ≤ 9 := by decide

theorem witness_CodeStringSpellsTheCode :
    1 ≤ 6 ∧ 6 ≤ 9 ∧ (7123#32).toNat < 10 ^ 6 ∧ (999999999#32).toNat < 10 ^ 9 := by decide

theorem witness_TimeToCounterForms :
    (30#32) ≠ 0 ∧ (30000#64).toNat = (0#64).toNat + 1000 * (30#32).toNat := by decide

theorem witness_WindowCandidatesAreTheCountersInRange :
    (0 : Nat) ≤ 18446744073709551 ∧ 4294967295 < 2 ^ 32 ∧ (1 : Int) ≤ 30 := by decide

theorem witness_VerifyMatchIsTheWindowExistential :
    (18446744073709551#64).toNat < 2 ^ 55 ∧ 1 ≤ 9 ∧ 9 ≤ 9 ∧ (rep 0x39 16).length = 16 := by decide

/-- Both disjuncts, each with the lengths of both commands at their bounds: CANDLEN 0 against DIGITS 6, and no digit
in CAND. -/
theorem witness_WrongCandidateNeverMatches :
    (∃ s : State, LegalCode s ∧ s.stepSecs ≠ 0 ∧ s.candLen ≠ s.digits ∧
      s.keyLen.toNat ≤ 160 ∧ s.textLen.toNat ≤ 256 ∧ s.keyLen = 160 ∧ s.textLen = 256) ∧
    ∃ s : State, LegalCode s ∧ s.stepSecs ≠ 0 ∧
      (∃ i, i < s.digits.toNat ∧ ¬(0x30 ≤ (s.bufAt .cand i).toNat ∧ (s.bufAt .cand i).toNat ≤ 0x39)) ∧
      s.keyLen.toNat ≤ 160 ∧ s.textLen.toNat ≤ 256 :=
  ⟨⟨{ State.reset with keyLen := 160, textLen := 256 }, ⟨rfl, by decide⟩, by decide⟩,
    ⟨{ State.reset with candLen := 6 }, ⟨rfl, by decide⟩, by decide, ⟨5, by decide, by decide⟩, by decide, by decide⟩⟩

end Sys2Proof.Tests
end

section
/-! State (10_state.md): the invariants of R50 kept by every step and met by every reachable state, the reset
table, the indexes that ignore writes, and the halves of the 64-bit registers. -/

namespace Sys2Proof.Machine

/-! ## Host writes -/

/-- Everything a host write can do (20_memory.md R63): nothing, a write to a scalar register, or a store to an
entry of a writable buffer. -/
theorem hostWrite_cases (a : Index) (v : Word) (s : State) :
    hostWrite a v s = s ∨
    (∃ r : Reg, a = r.index ∧ hostWrite a v s = writeReg r v s) ∨
    (∃ (b : Buf) (i : Nat), a.toNat = b.base + i ∧ i < b.size ∧ b.writable = true ∧
      hostWrite a v s = { s with mem := s.mem.write (b.base + i) (v.setWidth 8) }) := by
  cases hb : s.busy with
  | true => exact .inl (by simp [hostWrite, hb])
  | false =>
    obtain ⟨r, -, rfl⟩ | ⟨hl, -⟩ := locate_cases a
    · exact .inr (.inl ⟨r, rfl, hostWrite_reg hb r v⟩)
    · cases hn : byteIndex a.toNat with
      | false =>
        rw [locateByte_of_not_byte hn] at hl
        exact .inl (by simp [hostWrite, hb, hl])
      | true =>
        obtain ⟨b, hh⟩ := (byteIndex_iff _).mp hn
        rw [locateByte_of_holds hh] at hl
        obtain ⟨hlo, hhi⟩ := (Buf.holds_iff _ _).mp hh
        cases hw : b.writable with
        | false => exact .inl (by simp [hostWrite, hb, hl, writeByte, hw])
        | true =>
          exact .inr (.inr ⟨b, a.toNat - b.base, by omega, by omega, hw,
            by simp [hostWrite, hb, hl, writeByte, hw]⟩)

theorem step_write {s : State} {a : Index} {v : Word} {rest : List Event} (h : s.agenda = .write a v :: rest) :
    step s = .next (hostWrite a v { s with agenda := rest }) := by simp [step, h]

/-! ## Read-only and reserved indexes -/

theorem Reg.not_reservedIndex (r : Reg) : reservedIndex r.index.toNat = false := by cases r <;> rfl

/-- A reserved index is no byte location. -/
theorem Buf.not_reservedIndex {b : Buf} {n : Nat} (hb : b.holds n = true) : reservedIndex n = false := by
  have hr := (Buf.holds_iff b n).mp hb
  simp only [reservedIndex, Bool.or_eq_false_iff, decide_eq_false_iff_not]
  cases b <;> simp only [Buf.base, Buf.size, Config.codeStrMax, Config.candMax, Config.digestMax,
    Config.textMax, Config.keyMax] at hr <;> omega

/-- The reserved indexes of R44 are decoded as reserved. -/
theorem locate_of_reservedIndex {a : Index} (h : reservedIndex a.toNat = true) : locate a = .reserved := by
  obtain ⟨r, -, rfl⟩ | ⟨hl, -⟩ := locate_cases a
  · simp [Reg.not_reservedIndex] at h
  · rw [hl]
    refine locateByte_of_not_byte (Bool.eq_false_iff.mpr fun hn => ?_)
    obtain ⟨b, hb⟩ := (byteIndex_iff _).mp hn
    simp [Buf.not_reservedIndex hb] at h

/-- The read-only byte locations of R43 lie outside the writable buffers. -/
theorem Buf.not_readOnlyIndex {b : Buf} (hw : b.writable = true) {n : Nat} (hb : b.holds n = true) :
    readOnlyIndex n = false := by
  have hr := (Buf.holds_iff b n).mp hb
  simp only [readOnlyIndex, Bool.or_eq_false_iff, decide_eq_false_iff_not]
  cases b
  case codeStr | digest => cases hw
  all_goals
    simp only [Buf.base, Buf.size, Config.candMax, Config.textMax, Config.keyMax] at hr
    omega

theorem writeReg_of_readOnlyIndex {r : Reg} (h : readOnlyIndex r.index.toNat = true) (v : Word) (s : State) :
    writeReg r v s = s := by
  cases r
  case status | ctrLo | ctrHi | trunc | code => rfl
  all_goals exact absurd h (by decide)

/-- A write to a read-only or reserved index changes nothing, busy or not (R43, R44). -/
theorem hostWrite_eq_self {a : Index} (h : readOnlyIndex a.toNat = true ∨ reservedIndex a.toNat = true)
    (v : Word) (s : State) : hostWrite a v s = s := by
  obtain hs | ⟨r, rfl, hs⟩ | ⟨b, i, ha, hi, hw, -⟩ := hostWrite_cases a v s
  · exact hs
  · rw [hs, writeReg_of_readOnlyIndex (by simpa [Reg.not_reservedIndex] using h)]
  · have hb : b.holds a.toNat = true := (Buf.holds_iff _ _).mpr ⟨by omega, by omega⟩
    simp [Buf.not_readOnlyIndex hw hb, Buf.not_reservedIndex hb] at h

/-- Settles O10: by the decoder, such an index selects nothing a write can change. -/
theorem readOnlyAndReservedIgnoreWrites : Obligations.ReadOnlyAndReservedIgnoreWrites := by
  intro s a v rest
  refine ⟨fun hs ha => ?_, fun ha => ?_⟩
  · rw [step_write hs, hostWrite_eq_self ha]
  · simp [portRead, locate_of_reservedIndex ha]

/-! ## The invariants: frames

The clauses of `State.Inv` speak of CMD, the flags, the results and the memory only. -/

/-- The argument registers and the environment are free. -/
theorem State.Inv.withArguments {s : State} (h : s.Inv) (hash digits stepSecs window : Word) (counter time : DWord)
    (textLen keyLen candLen : Word) (agenda : List Event) (readData : Option Word) :
    State.Inv { s with
      hash := hash, digits := digits, stepSecs := stepSecs, window := window, counter := counter, time := time,
      textLen := textLen, keyLen := keyLen, candLen := candLen, agenda := agenda, readData := readData } := by
  cases h
  constructor <;> assumption

/-- A store to an entry of a writable buffer is outside CODE_STR and DIGEST. -/
theorem State.Inv.withByte {s : State} (h : s.Inv) {b : Buf} (hw : b.writable = true) {i : Nat} (hi : i < b.size)
    (v : Byte) : State.Inv { s with mem := s.mem.write (b.base + i) v } := by
  have hkept : BytesKeptOutside [b] s { s with mem := s.mem.write (b.base + i) v } := fun a ha => by
    have hb := (Buf.not_holds_iff _ _).mp (ha b (by simp))
    exact Memory.read_write_other _ _ (by omega)
  have hbuf : ∀ c : Buf, c.writable = false →
      State.buf { s with mem := s.mem.write (b.base + i) v } c = s.buf c := fun c hc =>
    hkept.buf (by rintro hm; rw [List.mem_singleton.mp hm, hw] at hc; cases hc)
  exact { h with
    err_codeStr := fun he => (hbuf .codeStr rfl).trans (h.err_codeStr he)
    err_digest := fun he => (hbuf .digest rfl).trans (h.err_digest he)
    mem_wf := Memory.wf_write h.mem_wf _ _
    mem_locations := Memory.locations_write h.mem_locations (Buf.byteIndex_entry b hi) _ }

/-! ## The invariants: start, writes, reset -/

/-- Start clears DONE, MATCH and ERR, so only the ranges and the memory are left to keep. -/
theorem startCommand_inv {s : State} (h : s.Inv) (v : Word) : (startCommand v s).Inv := by
  constructor
  case trunc_lt => exact h.trunc_lt
  case code_lt => exact h.code_lt
  case mem_wf => exact h.mem_wf
  case mem_locations => exact h.mem_locations
  all_goals simp

theorem writeReg_inv {s : State} (h : s.Inv) (r : Reg) (v : Word) : (writeReg r v s).Inv := by
  cases r
  case cmd => exact startCommand_inv h v
  case status | ctrLo | ctrHi | trunc | code => exact h
  all_goals exact h.withArguments ..

theorem hostWrite_inv {s : State} (h : s.Inv) (a : Index) (v : Word) : (hostWrite a v s).Inv := by
  obtain hs | ⟨r, -, hs⟩ | ⟨b, i, -, hi, hw, hs⟩ := hostWrite_cases a v s
  · rwa [hs]
  · rw [hs]
    exact writeReg_inv h r v
  · rw [hs]
    exact h.withByte hw hi _

/-- Settles O44: the flags are clear, the results zero and the memory empty. -/
theorem resetSatisfiesTheInvariants : Obligations.ResetSatisfiesTheInvariants := by
  unfold Obligations.ResetSatisfiesTheInvariants
  constructor
  case mem_wf => exact ⟨List.Pairwise.nil, by simp [State.reset]⟩
  case mem_locations => simp [State.reset]
  all_goals simp [State.reset]

theorem resetCore_inv (s : State) : (resetCore s).Inv := resetSatisfiesTheInvariants.withArguments ..

/-! ## The invariants: completion -/

/-- An outcome record that a completion may take to the results of the command word `w`: R50 said of the record. -/
structure Result.Safe (w : Word) (o : Result) : Prop where
  fits : o.Fits
  matched_verify : o.matched = true → o.err = 0 ∧ cmdOp w = 4
  err_le : o.err.toNat ≤ 5
  err_zero : o.err ≠ 0 → o = { zeroResult with err := o.err }
  trunc_lt : o.trunc.toNat < 2 ^ 31
  code_lt : o.code.toNat < 10 ^ 9

theorem complete_inv {s : State} {o : Result} (ho : o.Safe s.cmd) (hs : s.Inv) : (complete o s).Inv := by
  have hz : (complete o s).err ≠ 0 → o = { zeroResult with err := o.err } := by simpa using ho.err_zero
  exact {
    busy_not_done := by simp
    outcome_done := by simp
    matched_verify := by simpa using ho.matched_verify
    err_le := by simpa using ho.err_le
    err_ctr := fun he => (complete_ctr o s).trans (congrArg Result.ctr (hz he))
    err_trunc := fun he => (complete_trunc o s).trans (congrArg Result.trunc (hz he))
    err_code := fun he => (complete_code o s).trans (congrArg Result.code (hz he))
    err_codeStr := fun he => (complete_codeStr o s ho.fits.str).trans (congrArg Result.str (hz he))
    err_digest := fun he => (complete_digest o s ho.fits.digest).trans (congrArg Result.digest (hz he))
    trunc_lt := by simpa using ho.trunc_lt
    code_lt := by simpa using ho.code_lt
    mem_wf := complete_wf o s hs.mem_wf
    mem_locations := complete_locations o s ho.fits.str ho.fits.digest ho.fits.key hs.mem_locations }

theorem Result.safe_error (w : Word) {e : BitVec 4} (he : e.toNat ≤ 5) :
    Result.Safe w { zeroResult with err := e } where
  fits := Result.fits_error e
  matched_verify h := by cases h
  err_le := he
  err_zero _ := rfl
  trunc_lt := by simp [zeroResult]
  code_lt := by simp [zeroResult]

theorem decodeOp_command {op : Nat} {k : Bool} {i : Instr} (h : decodeOp op k = .command i) :
    op = i.op.toNat := by
  unfold decodeOp at h
  split at h <;> cases h <;> rfl

/-- The OP field of a word that decodes to a command is the command's. -/
theorem cmdOp_of_decode {w : Word} {i : Instr} (h : decode w = .command i) : cmdOp w = i.op := by
  unfold decode at h
  split at h
  · cases h
  · exact BitVec.eq_of_toNat_eq (decodeOp_command h)

theorem resultOf_matched {i : Instr} {s : State} (h : (resultOf i s).matched = true) : i.op = 4 := by
  cases i
  case verify | verifyT => rfl
  all_goals cases h

theorem resultOf_trunc_lt (i : Instr) (s : State) : (resultOf i s).trunc.toNat < 2 ^ 31 := by
  cases i
  case b32dec | verify | verifyT => exact Nat.two_pow_pos 31
  all_goals exact dynTrunc_lt _

/-- A code of at most 9 digits (R36). -/
theorem codeValue_lt_of_digits_le (b : Word) {d : Nat} (hd : d ≤ 9) : (codeValue b d).toNat < 10 ^ 9 :=
  (codeValue_lt b d).trans_le (Nat.pow_le_pow_right (by omega) hd)

theorem resultOf_code_lt {i : Instr} {s : State} (h : checkArgs i.op.toNat i.ksrc s = 0) :
    (resultOf i s).code.toNat < 10 ^ 9 := by
  cases i
  case b32dec | verify | verifyT => exact Nat.pow_pos (by omega)
  all_goals exact codeValue_lt_of_digits_le _ (digitCount_le (by decide) h).2

theorem resultOf_safe {i : Instr} {s : State} (hd : decode s.cmd = .command i)
    (hc : checkArgs i.op.toNat i.ksrc s = 0) : (resultOf i s).Safe s.cmd where
  fits := resultOf_fits hc
  matched_verify h := ⟨resultOf_err i s, (cmdOp_of_decode hd).trans (resultOf_matched h)⟩
  err_le := by simp
  err_zero h := absurd (resultOf_err i s) h
  trunc_lt := resultOf_trunc_lt i s
  code_lt := resultOf_code_lt hc

/-- A turn of the engine does nothing, or completes the command with a safe record. -/
theorem engineTurn_safe (s : State) :
    engineTurn s = .next s ∨ ∃ o : Result, o.Safe s.cmd ∧ engineTurn s = .next (complete o s) := by
  obtain ⟨-, ht⟩ | ⟨i, -, hd, ht⟩ | ⟨-, -, -, ht⟩ := engineTurn_cases s
  · exact .inl ht
  · by_cases hc : checkArgs i.op.toNat i.ksrc s = 0
    · exact .inr ⟨_, resultOf_safe hd hc, ht.trans (exec_of_check_eq_zero hc)⟩
    · exact .inr ⟨_, Result.safe_error _ (checkArgs_le _ _ s), ht.trans (exec_of_check_ne_zero hc)⟩
  · exact .inr ⟨_, Result.safe_error _ (by decide), ht⟩

theorem engineTurn_inv {s t : State} (h : s.Inv) (ht : engineTurn s = .next t) : t.Inv := by
  obtain hn | ⟨o, ho, hn⟩ := engineTurn_safe s
  · rw [hn] at ht
    cases ht
    exact h
  · rw [hn] at ht
    cases ht
    exact complete_inv ho h

/-! ## The invariants: steps and runs -/

/-- Settles O43, by the five things a step can do. -/
theorem stepKeepsTheInvariants : Obligations.StepKeepsTheInvariants := by
  intro s t h hst
  have hrest : ∀ rest, State.Inv { s with agenda := rest } := fun rest => h.withArguments ..
  obtain ⟨-, ht⟩ | ⟨rest, ⟨-, ht⟩ | ⟨a, -, rfl⟩ | ⟨a, v, -, rfl⟩ | ⟨-, rfl⟩⟩ := step_cases hst
  · exact engineTurn_inv h ht
  · exact engineTurn_inv (hrest rest) ht
  · exact h.withArguments ..
  · exact hostWrite_inv (hrest rest) a v
  · exact resetCore_inv _

theorem exists_engineTurn (s : State) : ∃ t, engineTurn s = .next t := by
  obtain ht | ⟨o, -, ht⟩ := engineTurn_safe s
  · exact ⟨_, ht⟩
  · exact ⟨_, ht⟩

/-- Nothing stops the core (60_exceptions.md R200, R211). -/
theorem exists_step (s : State) : ∃ t, step s = .next t := by
  cases ha : s.agenda with
  | nil => simpa [step, ha] using exists_engineTurn s
  | cons e rest =>
    cases e with
    | engine => simpa [step, ha] using exists_engineTurn { s with agenda := rest }
    | read | write | reset => simp [step, ha]

/-- A run from a safe state does not stop and ends in a safe state. -/
theorem run_inv {s : State} (h : s.Inv) (n : Nat) : ∃ t, Host.Core.run Sys2Proof.core n s = .next t ∧ t.Inv := by
  induction n generalizing s with
  | zero => exact ⟨s, rfl, h⟩
  | succ n ih =>
    obtain ⟨t, ht⟩ := exists_step s
    rw [run_next ht]
    exact ih (stepKeepsTheInvariants s t h ht)

/-- Settles O45: the reset state is safe whatever its agenda, and a run keeps the invariants. -/
theorem reachableStatesAreSafe : Obligations.ReachableStatesAreSafe := fun _ n =>
  run_inv (resetSatisfiesTheInvariants.withArguments ..) n

/-- Settles O13, entry by entry of the table of R49; every byte location is unlisted in the empty memory. -/
theorem resetStateIsTheTable : Obligations.ResetStateIsTheTable :=
  ⟨rfl, rfl, rfl, rfl, rfl, rfl, rfl, rfl, rfl, rfl, rfl, rfl, rfl, rfl, rfl, rfl, rfl, fun _ _ _ => rfl⟩

/-! ## Halves of the 64-bit registers -/

theorem halves_toNat (c : DWord) : (loHalf c).toNat + 2 ^ 32 * (hiHalf c).toNat = c.toNat := by
  rw [← ofHalves_toNat, ofHalves_halves]

theorem writeReg_busy {r : Reg} (hr : r ≠ .cmd) (v : Word) (s : State) : (writeReg r v s).busy = s.busy := by
  cases r
  case cmd => exact absurd rfl hr
  all_goals rfl

theorem writeReg_agenda (r : Reg) (v : Word) (s : State) (l : List Event) :
    writeReg r v { s with agenda := l } = { writeReg r v s with agenda := l } := by cases r <;> rfl

theorem step_writeReg {s : State} (hb : s.busy = false) {r : Reg} {v : Word} {rest : List Event}
    (h : s.agenda = .write r.index v :: rest) : step s = .next { writeReg r v s with agenda := rest } := by
  have hw := hostWrite_reg (s := { s with agenda := rest }) hb r v
  rw [step_write h, hw, writeReg_agenda]

/-- Two writes in a row to scalar registers of an idle core, the first of which starts no command. -/
theorem run_two_writes {s : State} (hb : s.busy = false) {r r' : Reg} (hr : r ≠ .cmd) {v w : Word}
    {rest : List Event} (h : s.agenda = .write r.index v :: .write r'.index w :: rest) :
    Host.Core.run Sys2Proof.core 2 s = .next { writeReg r' w (writeReg r v s) with agenda := rest } := by
  have hb' : (writeReg r v s).busy = false := (writeReg_busy hr v s).trans hb
  have h1 := step_writeReg hb h
  have h2 := step_writeReg (s := { writeReg r v s with agenda := .write r'.index w :: rest }) hb' rfl
  rw [writeReg_agenda r'] at h2
  exact (run_next h1 1).trans (run_next h2 0)

/-- Two writes in a row as a host performs them, in every schedule of the engine's turns (R96, `WR64`). -/
theorem accesses_two_writes {s : State} (hb : s.busy = false) {r r' : Reg} (hr : r ≠ .cmd) (v w : Word)
    (turns : List Bool) :
    Session.accesses (wrReg r v ++ wrReg r' w) ⟨s, turns⟩ =
      some ⟨writeReg r' w (writeReg r v s), turns.drop 2⟩ := by
  have hb' : (writeReg r v s).busy = false := (writeReg_busy hr v s).trans hb
  simp only [wrReg, List.singleton_append, Session.accesses, Session.access_write_idle, hb, hb', hostWrite_reg,
    Option.bind_some, ← List.drop_one, List.drop_drop]

/-! Both halves written make the whole register, in either order. -/

theorem writeReg_counterHi_counterLo (v w : Word) (s : State) :
    writeReg .counterHi w (writeReg .counterLo v s) = { s with counter := ofHalves w v } := by
  simp [writeReg]

theorem writeReg_counterLo_counterHi (v w : Word) (s : State) :
    writeReg .counterLo v (writeReg .counterHi w s) = { s with counter := ofHalves w v } := by
  simp [writeReg]

theorem writeReg_timeHi_timeLo (v w : Word) (s : State) :
    writeReg .timeHi w (writeReg .timeLo v s) = { s with time := ofHalves w v } := by
  simp [writeReg]

theorem writeReg_timeLo_timeHi (v w : Word) (s : State) :
    writeReg .timeLo v (writeReg .timeHi w s) = { s with time := ofHalves w v } := by
  simp [writeReg]

theorem perform_wr64Counter {s : State} (hb : s.busy = false) (c : DWord) (turns : List Bool) :
    (HostOp.wr64Counter c).perform ⟨s, turns⟩ = some (.nothing, ⟨{ s with counter := c }, turns.drop 2⟩) := by
  simp only [HostOp.perform, Session.writes, wr64Counter, accesses_two_writes hb (by decide : Reg.counterLo ≠ .cmd),
    writeReg_counterHi_counterLo, ofHalves_halves, Option.map_some]

theorem perform_wr64Time {s : State} (hb : s.busy = false) (c : DWord) (turns : List Bool) :
    (HostOp.wr64Time c).perform ⟨s, turns⟩ = some (.nothing, ⟨{ s with time := c }, turns.drop 2⟩) := by
  simp only [HostOp.perform, Session.writes, wr64Time, accesses_two_writes hb (by decide : Reg.timeLo ≠ .cmd),
    writeReg_timeHi_timeLo, ofHalves_halves, Option.map_some]

/-- The word the host got before plays no part in a read. -/
theorem readReg_readData (r : Reg) (s : State) (d : Option Word) :
    readReg r { s with readData := d } = readReg r s := by cases r <;> rfl

theorem perform_rd64Ctr {s : State} (hb : s.busy = false) (turns : List Bool) :
    HostOp.rd64Ctr.perform ⟨s, turns⟩ =
      some (.dword s.ctr, ⟨{ s with readData := some (portRead Reg.ctrHi.index s) }, turns.drop 2⟩) := by
  have hlo := Session.read_idle Reg.ctrLo.index ⟨s, turns⟩ hb
  have hhi := Session.read_idle Reg.ctrHi.index
    ⟨{ s with readData := some (portRead Reg.ctrLo.index s) }, turns.tail⟩ hb
  have hctr : ofHalves (readReg .ctrHi s) (readReg .ctrLo s) = s.ctr := ofHalves_halves _
  simp only [portRead_reg, readReg_readData, ← List.drop_one, List.drop_drop] at hlo hhi
  simp only [HostOp.perform, Session.rd64Ctr, hlo, hhi, hctr, portRead_reg, Option.bind_some, Option.map_some]

/-- Settles O11: the halves of a register are read and written apart, and joined they are the register. -/
theorem halvesFormOneValue : Obligations.HalvesFormOneValue := by
  intro s
  refine ⟨fun hb v w rest => ⟨?_, ?_⟩, halves_toNat s.counter, halves_toNat s.time, halves_toNat s.ctr,
    fun hb c turns => ⟨perform_wr64Counter hb c turns, perform_wr64Time hb c turns, perform_rd64Ctr hb turns⟩⟩
  · rintro (h | h) <;> refine ⟨ofHalves w v, ofHalves_toNat w v, ?_⟩
    · rw [run_two_writes (r := .counterLo) (r' := .counterHi) hb (by decide) h, writeReg_counterHi_counterLo]
    · rw [run_two_writes (r := .counterHi) (r' := .counterLo) hb (by decide) h, writeReg_counterLo_counterHi]
  · rintro (h | h) <;> refine ⟨ofHalves w v, ofHalves_toNat w v, ?_⟩
    · rw [run_two_writes (r := .timeLo) (r' := .timeHi) hb (by decide) h, writeReg_timeHi_timeLo]
    · rw [run_two_writes (r := .timeHi) (r' := .timeLo) hb (by decide) h, writeReg_timeLo_timeHi]

end Sys2Proof.Machine
end

section
/-! Memory (20_memory.md): what a host read returns (R62), what a host write stores and what it leaves alone (R63),
and the results between a completion and the next start (R71 c, 70_reset_and_hazards.md R253). -/

namespace Sys2Proof.Machine

/-! ## Reads -/

theorem step_read {s : State} {a : Index} {rest : List Event} (h : s.agenda = .read a :: rest) :
    step s = .next { s with agenda := rest, readData := some (portRead a s) } := by
  simp only [step, h]
  rfl

/-- `portRead_reg` for an index known to be a register's, as the clauses of R22 have it. -/
theorem portRead_of_eq_index (s : State) (r : Reg) {a : Index} (ha : a = r.index) : portRead a s = readReg r s := by
  rw [ha, portRead_reg]

/-- `locate_index` said of the index itself. -/
theorem locate_of_holds {b : Buf} {a : Index} (h : b.holds a.toNat = true) :
    locate a = .byte b (a.toNat - b.base) := by
  obtain ⟨hlo, hhi⟩ := (Buf.holds_iff _ _).mp h
  have ha : b.index (a.toNat - b.base) = a := by simp [Buf.index, Nat.add_sub_cancel' hlo]
  rw [← locate_index (b := b) (i := a.toNat - b.base) (by omega), ha]

/-- A byte location reads as its byte, zero-extended (R42). -/
theorem portRead_of_byteIndex {a : Index} (h : byteIndex a.toNat = true) (s : State) :
    portRead a s = (s.mem.read a.toNat).setWidth 32 := by
  obtain ⟨b, hb⟩ := (byteIndex_iff _).mp h
  have hlo := ((Buf.holds_iff _ _).mp hb).1
  simp [portRead, locate_of_holds hb, State.bufAt, Nat.add_sub_cancel' hlo]

theorem portRead_of_reservedIndex {a : Index} (h : reservedIndex a.toNat = true) (s : State) : portRead a s = 0 := by
  simp [portRead, locate_of_reservedIndex h]

/-- A read sees the register at its index or the byte at its index, and nothing else of the state. -/
theorem portRead_congr {x : Index} {s t : State} (hreg : ∀ q : Reg, x = q.index → readReg q t = readReg q s)
    (hbyte : t.mem.read x.toNat = s.mem.read x.toNat) : portRead x t = portRead x s := by
  obtain ⟨q, -, hq⟩ | ⟨hl, -⟩ := locate_cases x
  · rw [portRead_of_eq_index t q hq, portRead_of_eq_index s q hq, hreg q hq]
  · cases hx : byteIndex x.toNat with
    | true => rw [portRead_of_byteIndex hx, portRead_of_byteIndex hx, hbyte]
    | false => simp [portRead, hl, locateByte_of_not_byte hx]

/-- Settles O7: the word is the one at the index, by the register map; only `readData` and the agenda move. -/
theorem hostReadReturnsTheRegister : Obligations.HostReadReturnsTheRegister := by
  intro s a rest h
  have hreg := fun r : Reg => portRead_of_eq_index s r (a := a)
  have hnat := fun (r : Reg) (ha : a = r.index) => congrArg BitVec.toNat (hreg r ha)
  exact ⟨portRead a s, step_read h,
    hreg .cmd, fun ha => (hnat .status ha).trans (statusWord_toNat s),
    hreg .hash, hreg .digits, hreg .stepSecs, hreg .window,
    fun ha => (hnat .counterLo ha).trans (loHalf_toNat _), fun ha => (hnat .counterHi ha).trans (hiHalf_toNat _),
    fun ha => (hnat .timeLo ha).trans (loHalf_toNat _), fun ha => (hnat .timeHi ha).trans (hiHalf_toNat _),
    hreg .textLen, hreg .keyLen, hreg .candLen,
    fun ha => (hnat .ctrLo ha).trans (loHalf_toNat _), fun ha => (hnat .ctrHi ha).trans (hiHalf_toNat _),
    hreg .trunc, hreg .code,
    fun ha => by rw [portRead_of_byteIndex ha, BitVec.toNat_setWidth_of_le (by decide)],
    fun ha => portRead_of_reservedIndex ha s⟩

/-! ## Writes: the index classes of R63 -/

/-- The RW scalars are registers of the map. -/
theorem exists_reg_of_rwScalar {a : Index} (h : rwScalar a.toNat = true) : ∃ r : Reg, a = r.index := by
  have hmap : ∀ n ∈ List.range' 2 11, ∃ r ∈ [Reg.hash, .digits, .stepSecs, .window, .counterLo, .counterHi, .timeLo,
      .timeHi, .textLen, .keyLen, .candLen], n = r.index.toNat := by decide
  have hn : 2 ≤ a.toNat ∧ a.toNat ≤ 12 := by simpa [rwScalar] using h
  obtain ⟨r, -, hr⟩ := hmap a.toNat (List.mem_range'_1.mpr ⟨hn.1, by omega⟩)
  exact ⟨r, BitVec.eq_of_toNat_eq hr⟩

/-- The RW byte locations are the entries of the writable buffers. -/
theorem rwByte_iff (n : Nat) : rwByte n = true ↔ ∃ b : Buf, b.writable = true ∧ b.holds n = true := by
  simp only [rwByte, Bool.or_eq_true, decide_eq_true_eq, Buf.holds_iff]
  constructor
  · rintro ((h | h) | h)
    · exact ⟨.cand, rfl, h.1, Nat.lt_succ_of_le h.2⟩
    · exact ⟨.text, rfl, h.1, Nat.lt_succ_of_le h.2⟩
    · exact ⟨.key, rfl, h.1, Nat.lt_succ_of_le h.2⟩
  · rintro ⟨b, hw, hb⟩
    cases b
    case codeStr | digest => cases hw
    all_goals
      simp only [Buf.base, Buf.size, Config.candMax, Config.textMax, Config.keyMax] at hb
      omega

theorem byteIndex_of_rwByte {n : Nat} (h : rwByte n = true) : byteIndex n = true := by
  obtain ⟨b, -, hb⟩ := (rwByte_iff n).mp h
  exact (byteIndex_iff n).mpr ⟨b, hb⟩

theorem not_rwScalar_of_rwByte {n : Nat} (h : rwByte n = true) : rwScalar n = false := by
  simp only [rwByte, Bool.or_eq_true, decide_eq_true_eq] at h
  simp only [rwScalar, decide_eq_false_iff_not]
  omega

/-- Beside CMD, what is neither RW scalar nor RW byte location is read-only or reserved. -/
theorem readOnlyIndex_or_reservedIndex {a : Index} (ha : a ≠ 0x000) (hs : rwScalar a.toNat = false)
    (hb : rwByte a.toNat = false) : readOnlyIndex a.toNat = true ∨ reservedIndex a.toNat = true := by
  have hlt := a.isLt
  have h0 : a.toNat ≠ 0 := fun h => ha (BitVec.eq_of_toNat_eq h)
  simp only [rwScalar, rwByte, readOnlyIndex, reservedIndex, Bool.or_eq_true, Bool.or_eq_false_iff,
    decide_eq_true_eq, decide_eq_false_iff_not] at *
  omega

/-! ## Writes: what each one does -/

theorem hostWrite_of_busy {s : State} (hb : s.busy = true) (a : Index) (v : Word) : hostWrite a v s = s := by
  simp [hostWrite, hb]

theorem hostWrite_of_rwByte {s : State} (hb : s.busy = false) {a : Index} (ha : rwByte a.toNat = true) (v : Word) :
    hostWrite a v s = { s with mem := s.mem.write a.toNat (v.setWidth 8) } := by
  obtain ⟨b, hw, hh⟩ := (rwByte_iff _).mp ha
  have hlo := ((Buf.holds_iff _ _).mp hh).1
  simp [hostWrite, hb, locate_of_holds hh, writeByte, hw, Nat.add_sub_cancel' hlo]

/-- The three things a write to an idle core can do when it is not to CMD, each with the class of its index. -/
theorem hostWrite_idle_cases {s : State} (hb : s.busy = false) {a : Index} (ha : a ≠ 0x000) (v : Word) :
    (∃ r : Reg, a = r.index ∧ rwScalar a.toNat = true ∧ hostWrite a v s = writeReg r v s) ∨
    (rwScalar a.toNat = false ∧ rwByte a.toNat = true ∧
      hostWrite a v s = { s with mem := s.mem.write a.toNat (v.setWidth 8) }) ∨
    (rwScalar a.toNat = false ∧ rwByte a.toNat = false ∧ hostWrite a v s = s) := by
  cases hs : rwScalar a.toNat with
  | true =>
    obtain ⟨r, hr⟩ := exists_reg_of_rwScalar hs
    exact .inl ⟨r, hr, rfl, hr ▸ hostWrite_reg hb r v⟩
  | false =>
    cases hy : rwByte a.toNat with
    | true => exact .inr (.inl ⟨rfl, rfl, hostWrite_of_rwByte hb hy v⟩)
    | false => exact .inr (.inr ⟨rfl, rfl, hostWrite_eq_self (readOnlyIndex_or_reservedIndex ha hs hy) v s⟩)

/-! ## Writes: a register read back -/

theorem readReg_writeReg_same {r : Reg} (hr : rwScalar r.index.toNat = true) (v : Word) (s : State) :
    readReg r (writeReg r v s) = v := by
  cases r
  case cmd | status | ctrLo | ctrHi | trunc | code => exact absurd hr (by decide)
  case counterLo | timeLo => exact loHalf_ofHalves _ _
  case counterHi | timeHi => exact hiHalf_ofHalves _ _
  all_goals rfl

/-- Only the other half of a 64-bit register shares a field with the register written; it is put back as it was. -/
theorem readReg_writeReg_other {r q : Reg} (hr : r ≠ .cmd) (hq : q ≠ r) (v : Word) (s : State) :
    readReg q (writeReg r v s) = readReg q s := by
  cases r
  case cmd => exact absurd rfl hr
  all_goals cases q <;> simp [readReg, writeReg, statusWord] at hq ⊢

theorem writeReg_mem (r : Reg) (v : Word) (s : State) : (writeReg r v s).mem = s.mem := by cases r <;> rfl

theorem readReg_mem (q : Reg) (s : State) (m : Memory) : readReg q { s with mem := m } = readReg q s := by
  cases q <;> rfl

/-- A stored byte read back: bits 7:0 of the word written. -/
theorem setWidth_byte_word (v : Word) : (v.setWidth 8).setWidth 32 = v &&& 0xFF := by
  apply BitVec.eq_of_toNat_eq
  rw [BitVec.toNat_setWidth_of_le (by decide), BitVec.toNat_setWidth]
  exact (Nat.and_two_pow_sub_one_eq_mod v.toNat 8).symm

/-! ## Writes: the frame -/

/-- CMD, the flags, the results outside the buffers, and the environment are as before. -/
structure ControlKept (s t : State) : Prop where
  cmd : t.cmd = s.cmd
  busy : t.busy = s.busy
  done : t.done = s.done
  matched : t.matched = s.matched
  err : t.err = s.err
  ctr : t.ctr = s.ctr
  trunc : t.trunc = s.trunc
  code : t.code = s.code
  agenda : t.agenda = s.agenda
  readData : t.readData = s.readData

theorem writeReg_controlKept {r : Reg} (hr : r ≠ .cmd) (v : Word) (s : State) : ControlKept s (writeReg r v s) := by
  cases r
  case cmd => exact absurd rfl hr
  all_goals constructor <;> rfl

/-- Of all writes only one to CMD touches CMD, the flags or a result. -/
theorem hostWrite_controlKept {a : Index} (ha : a ≠ 0x000) (v : Word) (s : State) :
    ControlKept s (hostWrite a v s) := by
  obtain hs | ⟨r, hr, hs⟩ | ⟨b, i, -, -, -, hs⟩ := hostWrite_cases a v s <;> rw [hs]
  · constructor <;> rfl
  · exact writeReg_controlKept (by rintro rfl; exact ha hr) v s
  · constructor <;> rfl

theorem hostWrite_mem_read {s : State} (hb : s.busy = false) {a : Index} (ha : a ≠ 0x000) (v : Word) (n : Nat) :
    (hostWrite a v s).mem.read n =
      if n = a.toNat ∧ rwByte a.toNat = true then v.setWidth 8 else s.mem.read n := by
  obtain ⟨r, rfl, hr, hs⟩ | ⟨-, hy, hs⟩ | ⟨-, hy, hs⟩ := hostWrite_idle_cases hb ha v
  · have hy : rwByte r.index.toNat ≠ true := fun hy => by simp [not_rwScalar_of_rwByte hy] at hr
    simp [hs, writeReg_mem, hy]
  · by_cases hn : n = a.toNat
    · simp [hs, hn, hy]
    · simp [hs, hn, Memory.read_write_other _ _ hn]
  · simp [hs, hy]

theorem hostWrite_portRead {s : State} (hb : s.busy = false) {a : Index} (ha : a ≠ 0x000) (v : Word) (x : Index) :
    portRead x (hostWrite a v s) =
      if x = a ∧ rwScalar a.toNat = true then v
      else if x = a ∧ rwByte a.toNat = true then v &&& 0xFF
      else portRead x s := by
  obtain ⟨r, rfl, hr, hs⟩ | ⟨hn, hy, hs⟩ | ⟨hn, hy, hs⟩ := hostWrite_idle_cases hb ha v <;> rw [hs]
  · by_cases hx : x = r.index
    · simp [hx, hr, portRead_reg, readReg_writeReg_same hr]
    · have hcmd : r ≠ .cmd := by rintro rfl; exact ha rfl
      simp only [hx, false_and, if_false]
      refine portRead_congr (fun q hq => readReg_writeReg_other hcmd ?_ v s) (by rw [writeReg_mem])
      rintro rfl
      exact hx hq
  · by_cases hx : x = a
    · simp [hx, hn, hy, portRead_of_byteIndex (byteIndex_of_rwByte hy), setWidth_byte_word]
    · simp only [hx, false_and, if_false]
      exact portRead_congr (fun q _ => readReg_mem q s _)
        (Memory.read_write_other _ _ fun h => hx (BitVec.eq_of_toNat_eq h))
  · simp [hn, hy]

/-- Settles O8: the two cases outside the idle writes by their equations, the rest by the index classes of R63. -/
theorem hostWriteStoresAtItsIndexOnly : Obligations.HostWriteStoresAtItsIndexOnly := by
  intro s a v rest h
  refine ⟨_, step_write h, rfl, fun hb => hostWrite_of_busy (s := { s with agenda := rest }) hb a v, ?_, ?_⟩
  · rintro hb rfl
    exact hostWrite_reg (s := { s with agenda := rest }) hb .cmd v
  · intro hb ha
    have hk := hostWrite_controlKept ha v { s with agenda := rest }
    exact ⟨hostWrite_portRead (s := { s with agenda := rest }) hb ha v,
      hostWrite_mem_read (s := { s with agenda := rest }) hb ha v,
      hk.cmd, hk.busy, hk.done, hk.matched, hk.err, hk.agenda, hk.readData⟩

/-! ## The results between two commands -/

/-- No write stores to a read-only buffer, busy or not. -/
theorem hostWrite_buf {b : Buf} (hw : b.writable = false) (a : Index) (v : Word) (s : State) :
    (hostWrite a v s).buf b = s.buf b := by
  obtain hs | ⟨r, -, hs⟩ | ⟨c, i, -, hi, hc, hs⟩ := hostWrite_cases a v s <;> rw [hs]
  · rw [State.buf, writeReg_mem, State.buf]
  · refine BytesKeptOutside.buf (bs := [c]) (fun n hn => Memory.read_write_other _ _ ?_) ?_
    · have hn := (Buf.not_holds_iff _ _).mp (hn c (by simp))
      omega
    · rintro hm
      rw [List.mem_singleton.mp hm, hc] at hw
      cases hw

theorem hostWrite_sameResults {a : Index} (ha : a ≠ 0x000) (v : Word) (s : State) :
    SameResults s (hostWrite a v s) :=
  have hk := hostWrite_controlKept ha v s
  ⟨hk.ctr, hk.trunc, hk.code, hostWrite_buf rfl a v s, hostWrite_buf rfl a v s, hk.matched, hk.err⟩

/-- Settles O42, by the four events: a read and an idle turn of the engine touch no register, a write not to CMD
touches arguments only, and a reset is excluded. -/
theorem resultsStableUntilNextStart : Obligations.ResultsStableUntilNextStart := by
  intro s e rest hb hs hreset hcmd
  cases e with
  | read a => exact ⟨_, step_read hs, ⟨rfl, rfl, rfl, rfl, rfl, rfl, rfl⟩, hb, rfl, rfl⟩
  | write a v =>
    have ha : a ≠ 0x000 := by rintro rfl; exact hcmd v rfl
    have hk := hostWrite_controlKept ha v { s with agenda := rest }
    exact ⟨_, step_write hs, hostWrite_sameResults ha v { s with agenda := rest }, hk.busy.trans hb, hk.done, hk.cmd⟩
  | reset => exact absurd rfl hreset
  | engine =>
    have ht : step s = .next { s with agenda := rest } := by simp [step, hs, engineTurn, hb]
    exact ⟨_, ht, ⟨rfl, rfl, rfl, rfl, rfl, rfl, rfl⟩, hb, rfl, rfl⟩

end Sys2Proof.Machine
end

section
/-! Encoding (30_encoding.md): the decoder and the encoder undo each other and agree with R90's masks, what starts a
command and what completes it (R85, R86), the engine held to `Exec` (R88), the reads of each command (R89), KSRC (R82),
and the values of the host's operations (R96). -/

namespace Sys2Proof.Machine

/-! ## The command word -/

/-- The four fields of R80 make up the word. -/
theorem cmdWord_ext {w v : Word} (hop : cmdOp w = cmdOp v) (hrsv0 : cmdRsv0 w = cmdRsv0 v)
    (hksrc : cmdKsrc w = cmdKsrc v) (hrsv1 : cmdRsv1 w = cmdRsv1 v) : w = v := by
  obtain ⟨w0, w1, w2, w3⟩ := cmd_fields w
  obtain ⟨v0, v1, v2, v3⟩ := cmd_fields v
  rw [hop, v0] at w0
  rw [hrsv0, v1] at w1
  rw [hksrc, v2, decide_eq_decide] at w2
  rw [hrsv1, v3] at w3
  apply BitVec.eq_of_toNat_eq
  omega

/-- OP and KSRC select one command (R81, R83). -/
theorem decodeOp_eq_command_iff {op : BitVec 3} {k : Bool} {i : Instr} :
    decodeOp op.toNat k = .command i ↔ op = i.op ∧ k = i.ksrc := by
  constructor
  · refine fun h => ⟨BitVec.eq_of_toNat_eq (decodeOp_command h), ?_⟩
    unfold decodeOp at h
    split at h <;> cases h <;> rfl
  · rintro ⟨rfl, rfl⟩
    cases i <;> rfl

/-- The decoder reads a command exactly from clear reserved fields and the command's OP and KSRC. -/
theorem decode_eq_command_iff_fields {w : Word} {i : Instr} :
    decode w = .command i ↔ cmdRsv1 w = 0 ∧ cmdRsv0 w = 0 ∧ cmdOp w = i.op ∧ cmdKsrc w = i.ksrc := by
  by_cases hr : cmdRsv1 w ≠ 0 ∨ cmdRsv0 w ≠ 0
  · simp only [decode, if_pos hr, reduceCtorEq, false_iff]
    rintro ⟨h1, h0, -, -⟩
    exact hr.elim (· h1) (· h0)
  · obtain ⟨h1, h0⟩ : cmdRsv1 w = 0 ∧ cmdRsv0 w = 0 := by simpa using hr
    rw [decode, if_neg hr, decodeOp_eq_command_iff]
    simp [h1, h0]

theorem legalEncoding (i : Instr) : Laws.LegalEncoding.Statement i := by
  cases i
  exacts [Laws.LegalEncoding.b32dec, Laws.LegalEncoding.hotp, Laws.LegalEncoding.hotpT, Laws.LegalEncoding.totp,
    Laws.LegalEncoding.totpT, Laws.LegalEncoding.verify, Laws.LegalEncoding.verifyT]

/-- Each command has exactly one word (R83). -/
theorem decode_eq_command_iff {w : Word} {i : Instr} : decode w = .command i ↔ w = encode i := by
  obtain ⟨-, hop, hksrc, hrsv0, hrsv1⟩ := legalEncoding i
  constructor
  · intro h
    obtain ⟨h1, h0, ho, hk⟩ := decode_eq_command_iff_fields.mp h
    exact cmdWord_ext (ho.trans hop.symm) (h0.trans hrsv0.symm) (hk.trans hksrc.symm) (h1.trans hrsv1.symm)
  · rintro rfl
    exact decode_eq_command_iff_fields.mpr ⟨hrsv1, hrsv0, hop, hksrc⟩

/-- Settles O2: a word is its four fields, and decoder and encoder agree on them. -/
theorem decodeEncodeAgree : Obligations.DecodeEncodeAgree := fun _ _ _ => decode_eq_command_iff

/-- Settles O1: the five words are encodings. -/
theorem sampleWordsDecode : Obligations.SampleWordsDecode := by
  refine ⟨?_, ?_, ?_, ?_, ?_⟩ <;> exact decode_eq_command_iff.mpr (by decide)

/-! ## Legal words -/

/-- The mask of R90's second condition covers both reserved fields. -/
theorem rsv_eq_zero_of_reservedClear {w : Word} (h : reservedClear w = true) : cmdRsv1 w = 0 ∧ cmdRsv0 w = 0 := by
  have hbit : ∀ j, (0xFFFFFEF8#32).getLsbD j = true → w.getLsbD j = false := fun j hj => by
    have := congrArg (·.getLsbD j) (beq_iff_eq.mp h)
    simpa [BitVec.getLsbD_and, hj] using this
  have h1 : ∀ j < 23, (0xFFFFFEF8#32).getLsbD (9 + j) = true := by decide
  have h0 : ∀ j < 5, (0xFFFFFEF8#32).getLsbD (3 + j) = true := by decide
  constructor
  · exact BitVec.eq_of_getLsbD_eq fun j hj => by simp [cmdRsv1, hj, hbit _ (h1 j hj)]
  · exact BitVec.eq_of_getLsbD_eq fun j hj => by simp [cmdRsv0, hj, hbit _ (h0 j hj)]

/-- The mask of R90's first condition takes out OP. -/
theorem cmdOp_of_opLegal {w : Word} (h : opLegal w = true) : 1 ≤ (cmdOp w).toNat ∧ (cmdOp w).toNat ≤ 4 := by
  have hmask : (w &&& 7#32).toNat = w.toNat % 8 := Nat.and_two_pow_sub_one_eq_mod w.toNat 3
  simp only [opLegal, hmask, List.contains_eq_mem, List.mem_cons, List.not_mem_nil, Bool.not_eq_true',
    decide_eq_false_iff_not] at h
  rw [(cmd_fields w).1]
  omega

/-- R81, R83: OP 1 to 4 with either KSRC is a command, but for B32DEC with KSRC = 1. -/
theorem exists_decodeOp_command {op : Nat} {k : Bool} (hlo : 1 ≤ op) (hhi : op ≤ 4) (hk : op = 1 → k = false) :
    ∃ i, decodeOp op k = .command i := by
  obtain rfl | rfl | rfl | rfl : op = 1 ∨ op = 2 ∨ op = 3 ∨ op = 4 := by omega
  · exact ⟨.b32dec, by rw [hk rfl]; rfl⟩
  all_goals cases k
  exacts [⟨.hotp, rfl⟩, ⟨.hotpT, rfl⟩, ⟨.totp, rfl⟩, ⟨.totpT, rfl⟩, ⟨.verify, rfl⟩, ⟨.verifyT, rfl⟩]

theorem exists_command_of_legalWord {w : Word} (h : legalWord w = true) : ∃ i, decode w = .command i := by
  simp only [legalWord, Bool.and_eq_true] at h
  obtain ⟨⟨hclear, hop⟩, hallowed⟩ := h
  obtain ⟨h1, h0⟩ := rsv_eq_zero_of_reservedClear hclear
  obtain ⟨hlo, hhi⟩ := cmdOp_of_opLegal hop
  have hk : (cmdOp w).toNat = 1 → cmdKsrc w = false := fun ho => by
    refine Bool.eq_false_iff.mpr fun hk => ?_
    have hw : w = 0x101#32 := cmdWord_ext (BitVec.eq_of_toNat_eq ho) h0 hk h1
    rw [hw] at hallowed
    exact absurd hallowed (by decide)
  obtain ⟨i, hi⟩ := exists_decodeOp_command hlo hhi hk
  exact ⟨i, by simpa [decode, h1, h0] using hi⟩

theorem legalWord_iff_exists_command (w : Word) : legalWord w = true ↔ ∃ i, decode w = .command i := by
  refine ⟨exists_command_of_legalWord, ?_⟩
  rintro ⟨i, hi⟩
  rw [decode_eq_command_iff.mp hi]
  exact (legalEncoding i).1

/-- The words of the seven commands (R83). -/
theorem exists_eq_encode_iff (w : Word) :
    (∃ i, w = encode i) ↔ w.toNat ∈ [0x001, 0x002, 0x102, 0x003, 0x103, 0x004, 0x104] := by
  constructor
  · rintro ⟨i, rfl⟩
    cases i <;> decide
  · intro h
    have hw : ∀ n ∈ [0x001, 0x002, 0x102, 0x003, 0x103, 0x004, 0x104],
        ∃ i ∈ [Instr.b32dec, .hotp, .hotpT, .totp, .totpT, .verify, .verifyT], n = (encode i).toNat := by decide
    obtain ⟨i, -, hi⟩ := hw _ h
    exact ⟨i, BitVec.eq_of_toNat_eq hi⟩

/-- Settles O3: the masks of R90 leave the words the decoder reads, and these are the seven encodings. -/
theorem legalWordIffDecodes : Obligations.LegalWordIffDecodes := fun w =>
  ⟨legalWord_iff_exists_command w, (legalWord_iff_exists_command w).trans <|
    (exists_congr fun _ => decode_eq_command_iff).trans (exists_eq_encode_iff w)⟩

/-! ## Start and the engine's turn -/

theorem step_nil {s : State} (h : s.agenda = []) : step s = engineTurn s := by simp only [step, h]

theorem step_engine {s : State} {rest : List Event} (h : s.agenda = .engine :: rest) :
    step s = engineTurn { s with agenda := rest } := by simp only [step, h]

theorem engineTurn_of_idle {s : State} (hb : s.busy = false) : engineTurn s = .next s := by simp [engineTurn, hb]

theorem engineTurn_of_command {s : State} {i : Instr} (hb : s.busy = true) (hd : decode s.cmd = .command i) :
    engineTurn s = exec i s := by simp [engineTurn, completeCommand, hb, hd]

/-- Settles O5: either agenda gives the engine its turn, and a turn runs the command in CMD. -/
theorem stepRunsTheDecodedCommand : Obligations.StepRunsTheDecodedCommand := fun _ s rest hb hd =>
  ⟨fun h => (step_nil h).trans (engineTurn_of_command hb hd),
    fun h => (step_engine h).trans (engineTurn_of_command (s := { s with agenda := rest }) hb hd)⟩

/-- Settles O6: either agenda gives the engine its turn, and an idle turn changes nothing. -/
theorem engineTurnIdleWithoutBusy : Obligations.EngineTurnIdleWithoutBusy := fun s rest hb =>
  ⟨fun h => (step_nil h).trans (engineTurn_of_idle hb),
    fun h => (step_engine h).trans (engineTurn_of_idle (s := { s with agenda := rest }) hb)⟩

/-- Settles O15: index 0x000 is CMD, whose write is a start while idle and is dropped while busy. -/
theorem startWritesCmdAndFlagsOnly : Obligations.StartWritesCmdAndFlagsOnly := fun s v rest h =>
  ⟨fun hb => (step_writeReg hb (r := .cmd) h).trans rfl,
    fun hb => (step_write h).trans (congrArg _ (hostWrite_of_busy (s := { s with agenda := rest }) hb 0x000 v))⟩

/-! ## `Exec` (R88) -/

/-- `Check` of a legal word is the check of its command's arguments (60_exceptions.md R207). -/
theorem check_of_command {s : State} {i : Instr} (hd : decode s.cmd = .command i) :
    check s = checkArgs i.op.toNat i.ksrc s := by
  obtain ⟨h1, h0, hop, hk⟩ := decode_eq_command_iff_fields.mp hd
  simp only [check, h1, h0, hop, hk]
  cases i <;> simp [Instr.op, Instr.ksrc]

/-- `Check` of an illegal word is ERR_CMD (60_exceptions.md R202, R207). -/
theorem check_of_illegal {s : State} {why : DecodeError} (hd : decode s.cmd = .illegal why) : check s = errCmd := by
  by_contra hc
  have hr : ¬(cmdRsv1 s.cmd ≠ 0 ∨ cmdRsv0 s.cmd ≠ 0) := fun h => hc (by simp only [check, if_pos h])
  have hop : ¬((cmdOp s.cmd).toNat = 0 ∨ (cmdOp s.cmd).toNat ≥ 5) := fun h => hc (by
    simp only [check, if_pos h, ite_self])
  have hk : ¬((cmdOp s.cmd).toNat = 1 ∧ cmdKsrc s.cmd = true) := fun h => hc (by
    simp only [check, if_pos h, ite_self])
  obtain ⟨i, hi⟩ := exists_decodeOp_command (op := (cmdOp s.cmd).toNat) (k := cmdKsrc s.cmd) (by omega) (by omega)
    fun h => Bool.eq_false_iff.mpr fun hk' => hk ⟨h, hk'⟩
  rw [decode, if_neg hr, hi] at hd
  cases hd

theorem specExec_of_check_ne_zero {s : State} (hc : check s ≠ 0) : specExec s = { zeroResult with err := check s } := by
  simp only [specExec, if_pos hc]

/-- `Exec` of a legal word whose `Check` finds nothing is the record of its command. -/
theorem specExec_of_command {s : State} {i : Instr} (hd : decode s.cmd = .command i) (hc : check s = 0) :
    specExec s = resultOf i s := by
  obtain ⟨-, -, hop, hk⟩ := decode_eq_command_iff_fields.mp hd
  simp only [specExec, hc, hop, hk]
  cases i <;> rfl

/-- Everything a turn with BUSY = 1 does: complete with the record of `Exec`, whose parts fit their buffers. -/
theorem engineTurn_eq_complete_specExec {s : State} (hb : s.busy = true) :
    engineTurn s = .next (complete (specExec s) s) ∧ (specExec s).Fits := by
  obtain ⟨hb', -⟩ | ⟨i, -, hd, ht⟩ | ⟨why, -, hd, ht⟩ := engineTurn_cases s
  · rw [hb] at hb'
    cases hb'
  · have hchk := check_of_command hd
    by_cases hc : check s = 0
    · rw [specExec_of_command hd hc]
      rw [hchk] at hc
      exact ⟨ht.trans (exec_of_check_eq_zero hc), resultOf_fits hc⟩
    · rw [specExec_of_check_ne_zero hc, hchk]
      rw [hchk] at hc
      exact ⟨ht.trans (exec_of_check_ne_zero hc), Result.fits_error _⟩
  · rw [specExec_of_check_ne_zero (by rw [check_of_illegal hd]; decide), check_of_illegal hd]
    exact ⟨ht, Result.fits_error _⟩

theorem complete_holdsKey {o : Result} (ho : o.Fits) {k : List Byte} (hk : o.keyWrite = some k) (s : State) :
    HoldsKey k (complete o s) := by
  have hlen := ho.key k hk
  refine ⟨?_, complete_key_some o s hk hlen ho.str ho.digest⟩
  rw [complete_keyLen, hk, writeKey_some_keyLen, BitVec.toNat_ofNat]
  exact Nat.mod_eq_of_lt (by omega)

theorem complete_keyKept {o : Result} (ho : o.Fits) (hk : o.keyWrite = none) (s : State) : KeyKept s (complete o s) :=
  ⟨by rw [complete_keyLen, hk, writeKey_none], (complete_bytesKept_of_none ho hk s).buf (by decide)⟩

/-- Settles O16: the turn is the completion with the record of `Exec`, and a completion holds its record and keeps the
rest. -/
theorem engineStepIsTheSpecsExec : Obligations.EngineStepIsTheSpecsExec := by
  intro s hb
  obtain ⟨ht, ho⟩ := engineTurn_eq_complete_specExec hb
  exact ⟨_, ht, fun k hk => complete_holdsKey ho hk s, fun hk => complete_keyKept ho hk s,
    complete_ctr _ s, complete_trunc _ s, complete_code _ s, complete_codeStr _ s ho.str,
    complete_digest _ s ho.digest, ⟨complete_busy _ s, complete_done _ s, complete_matched _ s, complete_err _ s⟩,
    complete_registersKept _ s, complete_bytesKept ho s⟩

/-! ## KSRC (R82) -/

theorem Memory.read_writeBytes (m : Memory) (a : Nat) (vs : List Byte) (x : Nat) :
    (m.writeBytes a vs).read x = if a ≤ x ∧ x < a + vs.length then vs.getD (x - a) 0 else m.read x := by
  split_ifs with h
  · obtain ⟨i, rfl⟩ := Nat.exists_eq_add_of_le h.1
    have hi : i < vs.length := by omega
    simp [Memory.read_writeBytes_inside m a vs i hi, hi]
  · exact Memory.read_writeBytes_outside _ _ _ (by omega)

/-- The results of a completion are overwritten by those of the next, at the same places. -/
theorem Memory.writeResults_writeResults {m : Memory} (h : m.wf) {o o' : Result} (ho : o.Fits) (ho' : o'.Fits)
    {a b : Nat} :
    (((m.writeBytes a o.str).writeBytes b o.digest).writeBytes a o'.str).writeBytes b o'.digest =
      (m.writeBytes a o'.str).writeBytes b o'.digest := by
  refine Memory.eq_of_read_eq ?_ ?_ fun x => ?_
  · exact Memory.wf_writeBytes (Memory.wf_writeBytes (Memory.wf_writeBytes (Memory.wf_writeBytes h _ _) _ _) _ _) _ _
  · exact Memory.wf_writeBytes (Memory.wf_writeBytes h _ _) _ _
  · simp only [Memory.read_writeBytes, ho.str, ho.digest, ho'.str, ho'.digest]
    split_ifs <;> rfl

/-- A completion that writes no key, after another: one completion with the key of the first and the results of the
second. -/
theorem complete_complete {o o' : Result} (ho : o.Fits) (ho' : o'.Fits) (hk : o'.keyWrite = none) {s : State}
    (hs : s.mem.wf) : complete o' (complete o s) = complete { o' with keyWrite := o.keyWrite } s := by
  have hwf : (writeKey o.keyWrite s).mem.wf := by
    cases o.keyWrite with
    | none => exact hs
    | some k => exact Memory.wf_writeBytes hs _ _
  have hmem := Memory.writeResults_writeResults hwf ho ho' (a := Buf.codeStr.base) (b := Buf.digest.base)
  unfold complete
  rw [hk, writeKey_none]
  simp only [writeResults, setEndFlags, hmem]

theorem Memory.take_readBytes (m : Memory) (a : Nat) {n k : Nat} (h : n ≤ k) :
    (m.readBytes a k).take n = m.readBytes a n :=
  List.ext_getElem (by simpa using h) fun i _ _ => by simp

/-- A key held in KEY with its length in KEYLEN is the key a KSRC = 0 command takes. -/
theorem keyString_of_holdsKey {k : List Byte} {t : State} (h : HoldsKey k t) : keyString t = k := by
  obtain ⟨hlen, hbuf⟩ := h
  have hle : k.length ≤ Buf.key.size := by
    have := congrArg List.length hbuf
    rw [State.buf_length, List.length_append] at this
    omega
  calc keyString t = (t.buf .key).take k.length := by rw [keyString, hlen, State.buf, Memory.take_readBytes _ _ hle]
    _ = k := by rw [hbuf, List.take_left]

/-- The KSRC = 0 command of the same operation (R82). -/
def byteKeyForm (i : Instr) : Instr :=
  match i with
  | .hotpT => .hotp
  | .totpT => .totp
  | .verifyT => .verify
  | i => i

theorem byteKeyForm_fields {i : Instr} (hi : i.ksrc = true) :
    (byteKeyForm i).op = i.op ∧ (byteKeyForm i).ksrc = false ∧ 2 ≤ i.op.toNat := by
  cases i
  case hotpT | totpT | verifyT => decide
  all_goals cases hi

theorem resultOf_byteKeyForm_keyWrite {i : Instr} (hi : i.ksrc = true) (s : State) :
    (resultOf (byteKeyForm i) s).keyWrite = none := by
  cases i
  case hotpT | totpT | verifyT => rfl
  all_goals cases hi

/-- With the decoded key in KEY and the other arguments as before, the KSRC = 0 command has the record of the KSRC = 1
command but for the key write. -/
theorem resultOf_byteKeyForm {i : Instr} (hi : i.ksrc = true) {s m : State} (hr : RegistersKept s m)
    (hcand : candBuffer m = candBuffer s) (hkey : keyString m = decodedKey s) :
    { resultOf (byteKeyForm i) m with keyWrite := some (decodedKey s) } = resultOf i s := by
  cases i
  case hotpT => simp only [byteKeyForm, resultOf, hotpResult, digitCount, hkey, hr.counter, hr.digits]
  case totpT =>
    simp only [byteKeyForm, resultOf, hotpResult, digitCount, centreCounter, hkey, hr.time, hr.stepSecs, hr.digits]
  case verifyT =>
    simp only [byteKeyForm, resultOf, verifyResult, digitCount, centreCounter, hkey, hcand, hr.time, hr.stepSecs,
      hr.digits, hr.window, hr.candLen]
  all_goals cases hi

/-- What the KSRC = 1 command checks is enough for B32DEC, and for the KSRC = 0 command once KEYLEN is in bounds. -/
theorem checkArgs_byteKeyForm {i : Instr} (hi : i.ksrc = true) {s m : State} (hr : RegistersKept s m)
    (hlen : m.keyLen.toNat ≤ 160) (hc : checkArgs i.op.toNat true s = 0) :
    checkArgs (byteKeyForm i).op.toNat (byteKeyForm i).ksrc m = 0 := by
  obtain ⟨hop, hk, h2⟩ := byteKeyForm_fields hi
  obtain ⟨hcode, hstep, -, -⟩ := checkArgs_eq_zero.mp hc
  rw [hop, hk, checkArgs_eq_zero, hr.hash, hr.digits, hr.stepSecs]
  exact ⟨hcode, hstep, fun h => absurd h (by simp; omega), fun _ _ => hlen⟩

theorem exec_b32dec_of_textLen_le {s : State} (h : s.textLen.toNat ≤ 256) :
    exec .b32dec s = .next (complete (resultOf .b32dec s) s) ∧ (resultOf .b32dec s).Fits := by
  have hc : checkArgs Instr.b32dec.op.toNat Instr.b32dec.ksrc s = 0 :=
    checkArgs_eq_zero.mpr ⟨fun h => absurd h (by decide), fun h => absurd h (by decide), fun _ => h,
      fun h => absurd h (by decide)⟩
  exact ⟨exec_of_check_eq_zero hc, resultOf_fits hc⟩

/-- R82: a KSRC = 1 command whose check passes is B32DEC and then the KSRC = 0 command. -/
theorem exec_byteKeyForm_after_b32dec {i : Instr} (hi : i.ksrc = true) {s : State} (hs : s.mem.wf)
    (hc : checkArgs i.op.toNat true s = 0) :
    ∃ m t, exec .b32dec s = .next m ∧ exec (byteKeyForm i) m = .next t ∧ exec i s = .next t := by
  have hci : checkArgs i.op.toNat i.ksrc s = 0 := by rwa [hi]
  obtain ⟨hdec, hfits⟩ := exec_b32dec_of_textLen_le ((checkArgs_eq_zero.mp hc).2.2.1 (.inr rfl))
  have hr := complete_registersKept (resultOf .b32dec s) s
  have hkey := complete_holdsKey hfits rfl s
  have hlen : (complete (resultOf .b32dec s) s).keyLen.toNat ≤ 160 := hkey.1.trans_le (hfits.key _ rfl)
  have hcm := checkArgs_byteKeyForm hi hr hlen hc
  have hnone := resultOf_byteKeyForm_keyWrite hi (complete (resultOf .b32dec s) s)
  refine ⟨_, _, hdec, exec_of_check_eq_zero hcm, ?_⟩
  rw [exec_of_check_eq_zero hci, complete_complete hfits (resultOf_fits hcm) hnone hs]
  have hres := resultOf_byteKeyForm hi hr ((complete_bytesKept hfits s).buf (by decide)) (keyString_of_holdsKey hkey)
  exact congrArg (fun o => Host.Outcome.next (complete o s)) hres.symm

/-- Settles O35: each KSRC = 0 command of the statement is the other's form without the decoding. -/
theorem textKeyCommandIsDecodeThenByteKeyCommand : Obligations.TextKeyCommandIsDecodeThenByteKeyCommand := by
  intro s hs p hp hc
  have hform : ∀ p ∈ [(Instr.hotpT, Instr.hotp), (.totpT, .totp), (.verifyT, .verify)],
      p.1.ksrc = true ∧ p.2 = byteKeyForm p.1 := by decide
  obtain ⟨hi, hform⟩ := hform p hp
  rw [hform]
  exact exec_byteKeyForm_after_b32dec hi hs hc

/-! ## The reads of a command (R89) -/

theorem textString_congr {s t : State} (h : SameText s t) (hl : s.textLen.toNat ≤ 256) :
    textString t = textString s := by
  obtain ⟨hlen, hbytes⟩ := h
  rw [textString, textString, hlen, Memory.readBytes_eq_iff]
  exact fun i hi => hbytes i hi (hi.trans_le hl)

theorem keyString_congr {s t : State} (h : SameKey s t) (hl : s.keyLen.toNat ≤ 160) :
    keyString t = keyString s := by
  obtain ⟨hlen, hbytes⟩ := h
  rw [keyString, keyString, hlen, Memory.readBytes_eq_iff]
  exact fun i hi => hbytes i hi (hi.trans_le hl)

/-- The comparator looks at the candidate below the digit count, and only at a candidate of that length (R182). -/
theorem verifyMatch_congr {d : Nat} {cand cand' : List Byte} {clen : Word}
    (h : clen.toNat = d → cand'.take d = cand.take d) (key : List Byte) (c0 : DWord) (w : Word) :
    verifyMatch key c0 w d cand' clen = verifyMatch key c0 w d cand clen := by
  by_cases hn : clen.toNat = d
  · simp only [verifyMatch, h hn]
  · simp [verifyMatch, hn]

/-- `verifyMatch_congr` for the registers of two states (10_state.md R38). -/
theorem verifyMatch_of_sameCandidate {s t : State} (hd : t.digits = s.digits) (h : SameCandidate s t)
    (h9 : s.digits.toNat ≤ 9) (key : List Byte) (c0 : DWord) :
    verifyMatch key c0 t.window (digitCount t) (candBuffer t) t.candLen =
      verifyMatch key c0 s.window (digitCount s) (candBuffer s) s.candLen := by
  obtain ⟨hw, hl, hbytes⟩ := h
  have h16 : s.digits.toNat ≤ Buf.cand.size := h9.trans (by decide)
  rw [digitCount, digitCount, hd, hw, hl]
  refine verifyMatch_congr (fun hn => ?_) key c0 _
  rw [candBuffer, candBuffer, State.buf, State.buf, Memory.take_readBytes _ _ h16, Memory.take_readBytes _ _ h16,
    Memory.readBytes_eq_iff]
  exact fun i hi => hbytes (BitVec.eq_of_toNat_eq hn) i hi (hi.trans_le h16)

/-- The rows of R89 by OP and KSRC. -/
theorem readsSame_iff {i : Instr} {s t : State} :
    ReadsSame i s t ↔
      (i.op.toNat ≥ 2 → SameCodeConfig s t) ∧ (i.op.toNat = 2 → t.counter = s.counter) ∧
      (i.op.toNat ≥ 3 → SameTime s t) ∧ (i.op.toNat = 4 → SameCandidate s t) ∧
      (i.op.toNat = 1 ∨ i.ksrc = true → SameText s t) ∧ (i.op.toNat ≥ 2 → i.ksrc = false → SameKey s t) := by
  cases i <;> simp [ReadsSame, Instr.op, Instr.ksrc]

/-- `Check` of the arguments looks at the registers of the row only. -/
theorem checkArgs_congr {i : Instr} {s t : State} (h : ReadsSame i s t) :
    checkArgs i.op.toNat i.ksrc t = checkArgs i.op.toNat i.ksrc s := by
  obtain ⟨hcode, -, htime, -, htext, hkey⟩ := readsSame_iff.mp h
  have hHash : i.op.toNat ≥ 2 ∧ t.hash ≠ 0 ↔ i.op.toNat ≥ 2 ∧ s.hash ≠ 0 :=
    and_congr_right fun h => by rw [(hcode h).1]
  have hDigits : i.op.toNat ≥ 2 ∧ (t.digits.toNat < 1 ∨ t.digits.toNat > 9) ↔
      i.op.toNat ≥ 2 ∧ (s.digits.toNat < 1 ∨ s.digits.toNat > 9) :=
    and_congr_right fun h => by rw [(hcode h).2]
  have hStep : i.op.toNat ≥ 3 ∧ t.stepSecs = 0 ↔ i.op.toNat ≥ 3 ∧ s.stepSecs = 0 :=
    and_congr_right fun h => by rw [(htime h).2]
  have hText : (i.op.toNat = 1 ∨ i.ksrc = true) ∧ t.textLen.toNat > Config.textMax ↔
      (i.op.toNat = 1 ∨ i.ksrc = true) ∧ s.textLen.toNat > Config.textMax :=
    and_congr_right fun h => by rw [(htext h).1]
  have hKey : i.op.toNat ≥ 2 ∧ i.ksrc = false ∧ t.keyLen.toNat > Config.keyMax ↔
      i.op.toNat ≥ 2 ∧ i.ksrc = false ∧ s.keyLen.toNat > Config.keyMax :=
    and_congr_right fun h => and_congr_right fun hk => by rw [(hkey h hk).1]
  simp only [checkArgs, hHash, hDigits, hStep, hText, hKey]

/-- The record of a command whose check passes is a function of the registers of its row. -/
theorem resultOf_congr {i : Instr} {s t : State} (h : ReadsSame i s t) (hc : checkArgs i.op.toNat i.ksrc s = 0) :
    resultOf i t = resultOf i s := by
  obtain ⟨hcode, hcounter, htime, hcand, htext, hkey⟩ := readsSame_iff.mp h
  obtain ⟨hlegal, -, htextLen, hkeyLen⟩ := checkArgs_eq_zero.mp hc
  have hText : i.op.toNat = 1 ∨ i.ksrc = true → decodedKey t = decodedKey s := fun h =>
    congrArg b32Decode (textString_congr (htext h) (htextLen h))
  have hKey : i.op.toNat ≥ 2 → i.ksrc = false → keyString t = keyString s := fun h hk =>
    keyString_congr (hkey h hk) (hkeyLen h hk)
  have hDigits : i.op.toNat ≥ 2 → digitCount t = digitCount s := fun h => congrArg BitVec.toNat (hcode h).2
  have hCentre : i.op.toNat ≥ 3 → centreCounter t = centreCounter s := fun h =>
    congrArg₂ timeToCounter (htime h).1 (htime h).2
  have hMatch := fun h : i.op.toNat = 4 =>
    verifyMatch_of_sameCandidate (hcode (by omega)).2 (hcand h) (hlegal (by omega)).2.2
  cases i
  case b32dec => simp only [resultOf, hText (.inl rfl)]
  case hotp => simp only [resultOf, hKey (by decide) rfl, hcounter rfl, hDigits (by decide)]
  case hotpT => simp only [resultOf, hText (.inr rfl), hcounter rfl, hDigits (by decide)]
  case totp => simp only [resultOf, hKey (by decide) rfl, hCentre (by decide), hDigits (by decide)]
  case totpT => simp only [resultOf, hText (.inr rfl), hCentre (by decide), hDigits (by decide)]
  case verify => simp only [resultOf, verifyResult, hKey (by decide) rfl, hCentre (by decide), hMatch rfl]
  case verifyT => simp only [resultOf, verifyResult, hText (.inr rfl), hCentre (by decide), hMatch rfl]

/-- The results after a completion are those of the record, whatever the state before. -/
theorem complete_sameResults {o : Result} (ho : o.Fits) (s t : State) : SameResults (complete o s) (complete o t) := by
  simp only [SameResults, complete_ctr, complete_trunc, complete_code, complete_codeStr _ _ ho.str,
    complete_digest _ _ ho.digest, complete_matched, complete_err, and_self]

/-- A key written by the record is the same key, whatever the state before. -/
theorem complete_keyKept_complete {o : Result} (ho : o.Fits) {k : List Byte} (hk : o.keyWrite = some k) (s t : State) :
    KeyKept (complete o s) (complete o t) := by
  obtain ⟨hs, hsbuf⟩ := complete_holdsKey ho hk s
  obtain ⟨ht, htbuf⟩ := complete_holdsKey ho hk t
  exact ⟨BitVec.eq_of_toNat_eq (ht.trans hs.symm), htbuf.trans hsbuf.symm⟩

theorem resultOf_keyWrite_of_decodes {i : Instr} (hi : i ∈ decodeCommands) (s : State) :
    (resultOf i s).keyWrite = some (decodedKey s) := by
  have hd : ∀ i ∈ decodeCommands, i = .b32dec ∨ i.ksrc = true := by decide
  rw [resultOf_keyWrite, if_pos (hd i hi)]

/-- Settles O37: check and record are functions of the row, and the results of the check or the record alone. -/
theorem commandReadsOnlyItsRow : Obligations.CommandReadsOnlyItsRow := by
  intro i s t h
  have hct := checkArgs_congr h
  by_cases hc : checkArgs i.op.toNat i.ksrc s = 0
  · have hfits := resultOf_fits hc
    have ht := exec_of_check_eq_zero (hct.trans hc)
    rw [resultOf_congr h hc] at ht
    exact ⟨_, _, exec_of_check_eq_zero hc, ht, complete_sameResults hfits s t,
      fun hi _ => complete_keyKept_complete hfits (resultOf_keyWrite_of_decodes hi s) s t⟩
  · have ht := exec_of_check_ne_zero (hct.trans_ne hc)
    rw [hct] at ht
    exact ⟨_, _, exec_of_check_ne_zero hc, ht, complete_sameResults (Result.fits_error _) s t,
      fun _ he => absurd he (by simpa using hc)⟩

/-! ## A completion read back by the host -/

/-- A run in two parts. -/
theorem run_add {n : Nat} {s t : State} (h : Host.Core.run Sys2Proof.core n s = .next t) (m : Nat) :
    Host.Core.run Sys2Proof.core (n + m) s = Host.Core.run Sys2Proof.core m t := by
  induction n generalizing s with
  | zero =>
    cases h
    rw [Nat.zero_add]
  | succ n ih =>
    obtain ⟨u, hu⟩ := exists_step s
    rw [run_next hu] at h
    rw [Nat.succ_add, run_next hu, ih h]

/-- The turn of a busy core whatever the agenda and whatever the host has read. -/
theorem engineTurn_environment {s : State} (hb : s.busy = true) (l : List Event) (r : Option Word) :
    engineTurn { s with agenda := l, readData := r } =
      .next { complete (specExec s) s with agenda := l, readData := r } := by
  have ht := (engineTurn_eq_complete_specExec (s := { s with agenda := l, readData := r }) hb).1
  exact ht.trans (congrArg _ (complete_environment (specExec s) s l r))

/-- The state a host finds when it has read STATUS after the completion. -/
def afterWait (s : State) : State := hostRead Reg.status.index (complete (specExec s) s)

/-- Neither the agenda nor the host's earlier word matters to that state. -/
theorem afterWait_environment (s : State) (l : List Event) (r : Option Word) :
    afterWait { s with agenda := l, readData := r } = { afterWait s with agenda := l } := by
  show hostRead _ (complete (specExec s) { s with agenda := l, readData := r }) = _
  rw [complete_environment]
  rfl

theorem afterWait_agenda (s : State) : { afterWait s with agenda := s.agenda } = afterWait s := by
  rw [← complete_agenda (specExec s) s]
  rfl

theorem afterWait_readData (s : State) (r : Option Word) : afterWait { s with readData := r } = afterWait s :=
  (afterWait_environment s s.agenda r).trans (afterWait_agenda s)

/-- The engine's turn gives that state but for the word read. -/
theorem engineTurn_eq_afterWait {s : State} (hb : s.busy = true) :
    engineTurn s = .next { afterWait s with readData := s.readData } := by
  rw [(engineTurn_eq_complete_specExec hb).1, ← complete_readData (specExec s) s]
  rfl

theorem portRead_status (s : State) : portRead Reg.status.index s = statusWord s := portRead_reg s .status

/-- BUSY and DONE are bits 0 and 1 of STATUS (R24). -/
theorem statusWord_busy_done (s : State) :
    (statusWord s).getLsbD 0 = s.busy ∧ (statusWord s).getLsbD 1 = s.done := by
  simp [statusWord, flagBit]

/-- A busy safe core has no flag set but BUSY (R50). -/
theorem statusWord_of_busy {s : State} (h : s.Inv) (hb : s.busy = true) : statusWord s = 1 := by
  have hdone : s.done = false := Bool.eq_false_iff.mpr fun hd => h.busy_not_done ⟨hb, hd⟩
  have hout := fun hn => Bool.eq_false_iff.mp hdone (h.outcome_done hn)
  obtain ⟨hm, he⟩ := not_or.mp hout
  simp only [statusWord, hb, hdone, Bool.eq_false_iff.mpr hm, not_not.mp he]
  decide

/-! ## WAIT (R96) -/

/-- Reads of STATUS change no register, so each of them returns the same word. -/
theorem run_statusReads (s : State) (k : Nat) (l : List Event) :
    Host.Core.run Sys2Proof.core k { s with agenda := List.replicate k (.read Reg.status.index) ++ l } =
      .next { s with agenda := l, readData := if k = 0 then s.readData else some (statusWord s) } := by
  induction k generalizing s with
  | zero => rfl
  | succ k ih =>
    have hstep := step_read
      (s := { s with agenda := .read Reg.status.index :: (List.replicate k (.read Reg.status.index) ++ l) }) rfl
    have hrun := ih { s with readData := some (statusWord s) }
    exact (run_next hstep k).trans (hrun.trans (by simp [statusWord]))

/-- The whole of `waitAfter k`: reads of STATUS, the completion, and the read that sees it. -/
theorem run_waitAfter {s : State} (hb : s.busy = true) (k : Nat) (rest : List Event) :
    Host.Core.run Sys2Proof.core (k + 2) { s with agenda := waitAfter k ++ rest } =
      .next { afterWait s with agenda := rest } := by
  have hreads := run_statusReads s k (.engine :: .read Reg.status.index :: rest)
  generalize (if k = 0 then s.readData else some (statusWord s)) = r at hreads
  have hturn := (step_engine (s := { s with agenda := .engine :: .read Reg.status.index :: rest, readData := r })
    rfl).trans (engineTurn_environment hb (.read Reg.status.index :: rest) r)
  have hread := step_read (rest := rest)
    (s := { complete (specExec s) s with agenda := .read Reg.status.index :: rest, readData := r }) rfl
  rw [waitAfter, List.append_assoc]
  exact (run_add hreads 2).trans ((run_next hturn 1).trans (run_next hread 0))

/-- A read before which the engine takes no turn. -/
theorem Session.read_no_turn (a : Index) (s : State) (turns : List Bool) :
    Session.read a ⟨s, false :: turns⟩ =
      some (portRead a s, ⟨{ s with readData := some (portRead a s) }, turns⟩) := rfl

theorem runSteps_of_run {n : Nat} {s t : State} (h : Host.Core.run Sys2Proof.core n s = .next t) :
    runSteps n s = some t := by simp only [runSteps, h]

/-- A read before which the engine takes its turn sees the completed state. -/
theorem Session.read_status_turn {s : State} (hb : s.busy = true) (turns : List Bool) :
    Session.read Reg.status.index ⟨s, true :: turns⟩ = some (statusWord (afterWait s), ⟨afterWait s, turns⟩) := by
  have hrun : runEvent true (.read Reg.status.index) s = some (afterWait s) := by
    have h := run_waitAfter hb 0 s.agenda
    rw [afterWait_agenda] at h
    exact runSteps_of_run h
  simp only [Session.read, Session.access, List.headD_cons, hrun]
  rfl

theorem statusWord_afterWait (s : State) :
    (statusWord (afterWait s)).getLsbD 0 = false ∧ (statusWord (afterWait s)).getLsbD 1 = true := by
  rw [(statusWord_busy_done _).1, (statusWord_busy_done _).2, afterWait, hostRead_busy, hostRead_done, complete_busy,
    complete_done]
  exact ⟨rfl, rfl⟩

/-- WAIT on a busy core in the schedule where the turn comes before the read after `k` others. -/
theorem waitFrom_busy {s : State} (hb : s.busy = true) (hd : s.done = false) (k : Nat) (turns : List Bool) :
    waitFrom (List.replicate k false ++ true :: turns) s =
      some (statusWord (afterWait s), ⟨afterWait s, turns⟩) := by
  induction k generalizing s with
  | zero =>
    simp only [List.replicate_zero, List.nil_append, waitFrom, Session.read_status_turn hb, Option.bind_some,
      (statusWord_afterWait s).2, if_true]
  | succ k ih =>
    have hdone := (statusWord_busy_done s).2.trans hd
    have hrest := ih (s := { s with readData := some (statusWord s) }) hb hd
    rw [afterWait_readData] at hrest
    simpa only [List.replicate_succ, List.cons_append, waitFrom, Session.read_no_turn, portRead_status,
      Option.bind_some, hdone, Bool.false_eq_true, if_false] using hrest

/-- What the host reads at the `j`th of the reads of `waitAfter k` before the engine's turn. -/
theorem run_waitAfter_reads (s : State) {j k : Nat} (h1 : 1 ≤ j) (hjk : j ≤ k) (rest : List Event) :
    ∃ u, Host.Core.run Sys2Proof.core j { s with agenda := waitAfter k ++ rest } = .next u ∧
      u.readData = some (statusWord s) := by
  obtain ⟨m, rfl⟩ := Nat.exists_eq_add_of_le hjk
  have hrun := run_statusReads s j (waitAfter m ++ rest)
  have hl : List.replicate j (.read Reg.status.index) ++ (waitAfter m ++ rest) = waitAfter (j + m) ++ rest := by
    simp only [waitAfter, List.replicate_add, List.append_assoc]
  rw [hl, if_neg (by omega)] at hrun
  exact ⟨_, hrun, rfl⟩

/-! ## The other operations on an idle core (R96) -/

theorem perform_rdStr {s : State} (hb : s.busy = false) (turns : List Bool) {n : Nat} (hn : n ≤ 9) :
    ∃ r, (HostOp.rdStr n).perform ⟨s, turns⟩ =
      some (.bytes ((s.buf .codeStr).take n), ⟨{ s with readData := r }, turns.drop n⟩) := by
  have hsize : 0 + n ≤ Buf.codeStr.size := by rwa [Nat.zero_add]
  obtain ⟨r, hr⟩ := Session.readBytes_idle .codeStr n 0 ⟨s, turns⟩ hb hsize
  refine ⟨r, ?_⟩
  rw [State.buf, Memory.take_readBytes _ _ (show n ≤ Buf.codeStr.size from hn)]
  simp only [HostOp.perform, if_pos (show n ≤ Config.codeStrMax from hn), hr, Option.map_some, Nat.add_zero]

theorem perform_rdKey {s : State} (hb : s.busy = false) (turns : List Bool) (hn : s.keyLen.toNat ≤ 160) :
    ∃ r, HostOp.rdKey.perform ⟨s, turns⟩ =
      some (.bytes (keyString s), ⟨{ s with readData := r }, turns.drop (s.keyLen.toNat + 1)⟩) := by
  have hlen := Session.read_idle Reg.keyLen.index ⟨s, turns⟩ hb
  rw [show portRead Reg.keyLen.index s = s.keyLen from portRead_reg s .keyLen] at hlen
  have hsize : 0 + s.keyLen.toNat ≤ Buf.key.size := by rwa [Nat.zero_add]
  obtain ⟨r, hr⟩ := Session.readBytes_idle .key s.keyLen.toNat 0
    ⟨{ s with readData := some s.keyLen }, turns.tail⟩ hb hsize
  refine ⟨r, ?_⟩
  simp only [HostOp.perform, Session.rdKey, hlen, Option.bind_some, if_pos (show s.keyLen.toNat ≤ Config.keyMax from hn),
    hr, Option.map_some, Nat.add_zero, keyString, List.drop_tail]

/-- A load on an idle core: the bytes from entry 0 on, then the length register. -/
theorem writes_load {s : State} (hb : s.busy = false) {b : Buf} (hw : b.writable = true) {vs : List Byte}
    (hvs : vs.length ≤ b.size) (r : Reg) (v : Word) (turns : List Bool) :
    Session.writes (wrBytes b 0 vs ++ wrReg r v) ⟨s, turns⟩ =
      some (.nothing, ⟨writeReg r v { s with mem := s.mem.writeBytes b.base vs }, turns.drop (vs.length + 1)⟩) := by
  have hbytes := Session.accesses_wrBytes hw vs 0 ⟨s, turns⟩ hb (by rwa [Nat.zero_add])
  have hreg := hostWrite_reg (s := { s with mem := s.mem.writeBytes b.base vs }) hb r v
  have hlen := Session.access_write_idle r.index v
    ⟨{ s with mem := s.mem.writeBytes b.base vs }, turns.drop vs.length⟩ hb
  simp only [Session.writes, Session.accesses_append, hbytes, Nat.add_zero, Option.bind_some, wrReg, Session.accesses,
    hlen, hreg, Option.map_some, List.tail_drop]

/-- Settles O41: WAIT by induction on the reads before the turn, the other operations access by access. -/
theorem hostOperationsHaveTheirValues : Obligations.HostOperationsHaveTheirValues := by
  intro s
  constructor
  · intro hinv hb k
    have hdone : s.done = false := Bool.eq_false_iff.mpr fun hd => hinv.busy_not_done ⟨hb, hd⟩
    obtain ⟨hbit0, hbit1⟩ := statusWord_afterWait s
    refine ⟨fun rest j h1 hjk => ?_, afterWait s, statusWord (afterWait s), engineTurn_eq_afterWait hb, rfl, rfl, hbit0,
      hbit1, run_waitAfter hb k, fun turns => ?_⟩
    · rw [← statusWord_of_busy hinv hb]
      exact run_waitAfter_reads s h1 hjk rest
    · simp only [HostOp.perform, waitFrom_busy hb hdone, Option.map_some]
  · intro hb turns
    refine ⟨fun n hn => perform_rdStr hb turns hn, perform_rdKey hb turns, fun T hT => ?_, fun k hk => ?_, fun c => ?_⟩
    · exact (if_pos hT).trans (writes_load hb rfl hT .textLen _ turns)
    · exact (if_pos hk).trans (writes_load hb rfl hk .keyLen _ turns)
    · have hlen : (c.take Config.candMax).length = min c.length 16 := by rw [List.length_take, Nat.min_comm]; rfl
      have hload := writes_load hb (b := .cand) rfl (List.length_take_le Config.candMax c) .candLen
        (BitVec.ofNat 32 c.length) turns
      rwa [hlen] at hload

end Sys2Proof.Machine
end

section
/-! Base32 (40_base32.md): the alphabet (R101, R102), the decoder's loop held to R104's closed form, so that a decode is
a function of the values of the text's characters alone (R105, R109), and where a decode's result goes (R106, R107). -/

namespace Sys2Proof.Machine

/-! ## Characters (R101, R102) -/

/-- Settles O47: the 256 character codes, one by one. -/
theorem charValIsThePlaceInTheAlphabet : Obligations.CharValIsThePlaceInTheAlphabet := by
  unfold Obligations.CharValIsThePlaceInTheAlphabet
  decide

theorem foldCase_foldCase (ch : Byte) : foldCase (foldCase ch) = foldCase ch := by
  by_cases h : 0x61 ≤ ch.toNat ∧ ch.toNat ≤ 0x7A
  · have hupper : ¬(0x61 ≤ (ch - 0x20).toNat ∧ (ch - 0x20).toNat ≤ 0x7A) := by bv_omega
    rw [foldCase, foldCase, if_pos h, if_neg hupper]
  · rw [foldCase, foldCase, if_neg h, if_neg h]

theorem charVal_foldCase (ch : Byte) : charVal (foldCase ch) = charVal ch := by
  rw [charValIsThePlaceInTheAlphabet, foldCase_foldCase, ← charValIsThePlaceInTheAlphabet]

/-- The padding character has no value (R102). -/
theorem charVal_padding : charVal 0x3D#8 = none := rfl

/-! ## The values of a text -/

theorem filterMap_dropWhile_of_none {α β : Type} {f : α → Option β} {p : α → Bool}
    (h : ∀ a, p a = true → f a = none) (l : List α) : (l.dropWhile p).filterMap f = l.filterMap f := by
  induction l with
  | nil => rfl
  | cons a l ih =>
    cases hp : p a with
    | false => rw [List.dropWhile_cons_of_neg (by simp [hp])]
    | true => rw [List.dropWhile_cons_of_pos hp, List.filterMap_cons_none (h a hp), ih]

theorem filterMap_charVal_stripPadding (T : List Byte) : (stripPadding T).filterMap charVal = T.filterMap charVal := by
  have hpad : ∀ ch : Byte, (ch == 0x3D#8) = true → charVal ch = none := fun ch h => by
    rw [eq_of_beq h, charVal_padding]
  rw [stripPadding, List.filterMap_reverse, filterMap_dropWhile_of_none hpad, List.filterMap_reverse,
    List.reverse_reverse]

theorem filterMap_charVal_lt (T : List Byte) : ∀ v ∈ T.filterMap charVal, v < 32 := fun v hv => by
  obtain ⟨ch, -, hch⟩ := List.mem_filterMap.mp hv
  exact charVal_lt hch

theorem filterMap_charVal_normalizeText (T : List Byte) :
    (normalizeText T).filterMap charVal = T.filterMap charVal := by
  rw [normalizeText, List.filterMap_map, funext charVal_foldCase (f := charVal ∘ foldCase),
    filterMap_charVal_stripPadding]

theorem filterMap_charVal_padding (n : Nat) : (rep 0x3D n).filterMap charVal = [] :=
  List.filterMap_replicate_of_none charVal_padding

/-! ## The stream of values as a number, and its leading bytes (R104) -/

/-- The number whose base-32 digits are those of `acc` and then `vs`: `base32Number` of a stream under way. -/
def streamNumber (acc : Nat) (vs : List Nat) : Nat := vs.foldl (fun n v => 32 * n + v) acc

theorem streamNumber_zero (vs : List Nat) : streamNumber 0 vs = base32Number vs := rfl

theorem streamNumber_cons (acc v : Nat) (vs : List Nat) :
    streamNumber acc (v :: vs) = streamNumber (32 * acc + v) vs := rfl

/-- The leading digits of the stream's number are `acc`. -/
theorem streamNumber_div (acc r : Nat) {vs : List Nat} (h : ∀ v ∈ vs, v < 32) :
    streamNumber acc vs / 2 ^ (r + 5 * vs.length) = acc / 2 ^ r := by
  induction vs generalizing acc r with
  | nil => rfl
  | cons v vs ih =>
    obtain ⟨hv, hvs⟩ := List.forall_mem_cons.mp h
    calc streamNumber acc (v :: vs) / 2 ^ (r + 5 * (v :: vs).length)
        = streamNumber (32 * acc + v) vs / 2 ^ (r + 5 + 5 * vs.length) := by
          rw [streamNumber_cons, List.length_cons]
          congr 2
          omega
      _ = (32 * acc + v) / 2 ^ (r + 5) := ih _ _ hvs
      _ = (32 * acc + v) / 32 / 2 ^ r := by rw [Nat.pow_add', Nat.div_div_eq_div_mul]
      _ = acc / 2 ^ r := by
          congr 1
          omega

/-- Dropping leading bits of the stream's number drops them from `acc`. -/
theorem streamNumber_mod (acc r : Nat) {vs : List Nat} (h : ∀ v ∈ vs, v < 32) :
    streamNumber acc vs % 2 ^ (r + 5 * vs.length) = streamNumber (acc % 2 ^ r) vs := by
  induction vs generalizing acc r with
  | nil => rfl
  | cons v vs ih =>
    obtain ⟨hv, hvs⟩ := List.forall_mem_cons.mp h
    have hlow : (32 * acc + v) % 2 ^ (r + 5) = 32 * (acc % 2 ^ r) + v := by
      rw [Nat.pow_add', Nat.mod_mul, show (32 * acc + v) % 2 ^ 5 = v by omega,
        show (32 * acc + v) / 2 ^ 5 = acc by omega, Nat.add_comm]
    calc streamNumber acc (v :: vs) % 2 ^ (r + 5 * (v :: vs).length)
        = streamNumber (32 * acc + v) vs % 2 ^ (r + 5 + 5 * vs.length) := by
          rw [streamNumber_cons, List.length_cons]
          congr 2
          omega
      _ = streamNumber (acc % 2 ^ r) (v :: vs) := by rw [ih _ _ hvs, hlow, streamNumber_cons]

/-- The whole bytes of the `bits`-bit number `n`, most significant first; the bits left over are dropped. -/
def leadingBytes (n bits : Nat) : List Byte :=
  (List.range (bits / 8)).map fun q => BitVec.ofNat 8 (n / 2 ^ (bits - 8 * q - 8))

@[simp] theorem leadingBytes_length (n bits : Nat) : (leadingBytes n bits).length = bits / 8 := by simp [leadingBytes]

theorem leadingBytes_of_lt (n : Nat) {bits : Nat} (h : bits < 8) : leadingBytes n bits = [] := by
  rw [leadingBytes, Nat.div_eq_of_lt h, List.range_zero, List.map_nil]

theorem leadingBytes_getD_toNat (n : Nat) {bits q : Nat} (h : q < bits / 8) :
    ((leadingBytes n bits).getD q 0).toNat = n / 2 ^ (bits - 8 * q - 8) % 256 := by
  simp [leadingBytes, h]

/-- The first byte, and the bytes of what stands below it. -/
theorem leadingBytes_add_eight (n bits : Nat) :
    leadingBytes n (bits + 8) = BitVec.ofNat 8 (n / 2 ^ bits) :: leadingBytes (n % 2 ^ bits) bits := by
  have hbyte : ∀ q ∈ List.range (bits / 8),
      BitVec.ofNat 8 (n / 2 ^ (bits + 8 - 8 * (q + 1) - 8)) =
        BitVec.ofNat 8 (n % 2 ^ bits / 2 ^ (bits - 8 * q - 8)) := fun q hq => by
    rw [List.mem_range] at hq
    obtain ⟨m, hm⟩ : ∃ m, bits = m + (8 * q + 8) := ⟨bits - (8 * q + 8), by omega⟩
    have hdvd : 2 ^ 8 ∣ 2 ^ (8 * q + 8) := Nat.pow_dvd_pow 2 (by omega)
    rw [show bits + 8 - 8 * (q + 1) - 8 = m by omega, show bits - 8 * q - 8 = m by omega, hm, Nat.pow_add,
      Nat.mod_mul_right_div_self]
    exact BitVec.eq_of_toNat_eq (Nat.mod_mod_of_dvd _ hdvd).symm
  rw [leadingBytes, Nat.add_div_right _ (by decide), List.range_succ_eq_map, List.map_cons, List.map_map, leadingBytes]
  exact congrArg _ (List.map_congr_left hbyte)

/-! ## The decoder -/

/-- A value appended to the stream bits, as arithmetic (R104). -/
theorem shiftLeft_five_or (acc : Nat) {v : Nat} (h : v < 32) : acc <<< 5 ||| v = 32 * acc + v := by
  rw [← Nat.shiftLeft_add_eq_or_of_lt (i := 5) h, Nat.shiftLeft_eq, Nat.mul_comm]

/-- The loop's bytes are the leading bytes of the stream: the `nbits` bits it holds, then the values still to come. -/
theorem b32Loop_eq_leadingBytes (T : List Byte) (acc : Nat) {nbits : Nat} (h : nbits < 8) :
    b32Loop T acc nbits =
      leadingBytes (streamNumber acc (T.filterMap charVal)) (nbits + 5 * (T.filterMap charVal).length) := by
  induction T generalizing acc nbits with
  | nil => exact (leadingBytes_of_lt _ h).symm
  | cons ch T ih =>
    cases hv : charVal ch with
    | none => simp only [b32Loop, hv, ih acc h, List.filterMap_cons_none hv]
    | some v =>
      have hvs := filterMap_charVal_lt T
      simp only [b32Loop, hv, List.filterMap_cons_some hv, List.length_cons, streamNumber_cons,
        shiftLeft_five_or acc (charVal_lt hv)]
      by_cases hn : nbits + 5 ≥ 8
      · obtain ⟨r, rfl⟩ : ∃ r, nbits = r + 3 := ⟨nbits - 3, by omega⟩
        rw [if_pos hn, show r + 3 + 5 - 8 = r by omega, Nat.one_shiftLeft, Nat.and_two_pow_sub_one_eq_mod,
          Nat.shiftRight_eq_div_pow, ih _ (by omega),
          show r + 3 + 5 * ((T.filterMap charVal).length + 1) = r + 5 * (T.filterMap charVal).length + 8 by omega,
          leadingBytes_add_eight, streamNumber_div _ _ hvs, streamNumber_mod _ _ hvs]
      · rw [if_neg hn, ih _ (by omega)]
        congr 1
        omega

/-- The whole loop, with no bit held at its start. -/
theorem b32Loop_zero_eq_leadingBytes (T : List Byte) :
    b32Loop T 0 0 = leadingBytes (base32Number (T.filterMap charVal)) (5 * (T.filterMap charVal).length) := by
  rw [b32Loop_eq_leadingBytes _ _ (by decide), streamNumber_zero, Nat.zero_add]

/-- R104's closed form: a decode is the leading bytes of the number the characters' values spell. -/
theorem b32Decode_eq_leadingBytes (T : List Byte) :
    b32Decode T = leadingBytes (base32Number (T.filterMap charVal)) (5 * (T.filterMap charVal).length) := by
  rw [b32Decode, b32Loop_zero_eq_leadingBytes, filterMap_charVal_stripPadding]

theorem b32Decode_length (T : List Byte) : (b32Decode T).length = 5 * (T.filterMap charVal).length / 8 := by
  rw [b32Decode_eq_leadingBytes, leadingBytes_length]

theorem b32Decode_congr {T U : List Byte} (h : T.filterMap charVal = U.filterMap charVal) :
    b32Decode T = b32Decode U := by
  rw [b32Decode_eq_leadingBytes, b32Decode_eq_leadingBytes, h]

/-- Settles O48: byte q of the leading bytes, by the loop's closed form. -/
theorem base32ClosedForm : Obligations.Base32ClosedForm := fun T =>
  ⟨b32Decode_length T, fun q hq => by rw [b32Decode_eq_leadingBytes, leadingBytes_getD_toNat _ hq]⟩

/-- Settles O49: padding and characters outside the alphabet have no value, and a decode depends on the values only. -/
theorem base32Consequences : Obligations.Base32Consequences := by
  refine ⟨fun T => (b32Decode_eq_leadingBytes T).trans (b32Loop_zero_eq_leadingBytes T).symm,
    fun T n => b32Decode_congr ?_, b32Decode_length, by decide, by decide, fun T hT => ?_, fun T hT => ?_⟩
  · rw [List.filterMap_append, filterMap_charVal_padding, List.append_nil]
  · have hvalid := List.length_filterMap_le charVal T
    rw [b32Decode_length]
    omega
  · rw [b32Decode_eq_leadingBytes, List.filterMap_eq_nil_iff.mpr hT]
    rfl

/-- Settles O50: neither the padding nor the case of a letter changes a value. -/
theorem decodeIgnoresCaseAndPadding : Obligations.DecodeIgnoresCaseAndPadding := fun T =>
  b32Decode_congr (filterMap_charVal_normalizeText T).symm

/-! ## Where a decode's result goes (R106, R107) -/

theorem complete_resultsZero (kw : Option (List Byte)) (e : BitVec 4) (s : State) :
    ResultsZero (complete { zeroResult with keyWrite := kw, err := e } s) :=
  ⟨complete_ctr _ s, complete_trunc _ s, complete_code _ s, complete_codeStr _ s rfl, complete_digest _ s rfl⟩

/-- Settles O18: the completion with the decoded text as its key and zeros as its results. -/
theorem b32decDecodesTheText : Obligations.B32decDecodesTheText := by
  intro s hlen
  obtain ⟨hexec, hfits⟩ := exec_b32dec_of_textLen_le hlen
  exact ⟨_, hexec, complete_holdsKey hfits rfl s, complete_resultsZero (some (decodedKey s)) 0 s,
    ⟨complete_busy _ s, complete_done _ s, complete_matched _ s, complete_err _ s⟩,
    complete_registersKept _ s, complete_bytesKept hfits s⟩

/-- Settles O30: a check that passes completes with the decoded key, one that fails writes no key. -/
theorem decodeResultGoesToKey : Obligations.DecodeResultGoesToKey := by
  intro s i hi
  by_cases hc : checkArgs i.op.toNat i.ksrc s = 0
  · have hfits := resultOf_fits hc
    exact ⟨_, exec_of_check_eq_zero hc, fun _ => complete_holdsKey hfits (resultOf_keyWrite_of_decodes hi s) s,
      fun he => absurd ((complete_err _ s).trans (resultOf_err i s)) he, complete_textLen _ s,
      (complete_bytesKept hfits s).buf (by decide)⟩
  · have hfits := Result.fits_error (checkArgs i.op.toNat i.ksrc s)
    exact ⟨_, exec_of_check_ne_zero hc, fun he => absurd ((errorOutcome_err _ s).symm.trans he) hc,
      fun _ => complete_keyKept hfits rfl s, errorOutcome_textLen _ s, (complete_bytesKept hfits s).buf (by decide)⟩

end Sys2Proof.Machine
end

section
/-! SHA-1 and HMAC (41_sha1_hmac.md): big-endian words as numbers, the padding (R121), the schedule and the rounds of
`Compress` as recurrences (R122 to R125), the digest's bytes (R126), and the key cases of HMAC (R130 to R132). -/

namespace Sys2Proof.Machine

/-! ## Big-endian words (R12, R151) -/

theorem be32_getD_toNat (w : Word) {i : Nat} (h : i < 4) :
    ((be32 w).getD i 0).toNat = w.toNat / 256 ^ (3 - i) % 256 := by
  interval_cases i <;> simp [be32, Nat.shiftRight_eq_div_pow]

theorem be64_getD_toNat (c : DWord) {i : Nat} (h : i < 8) :
    ((be64 c).getD i 0).toNat = c.toNat / 256 ^ (7 - i) % 256 := by
  simp [be64, h, Nat.shiftRight_eq_div_pow, Nat.pow_mul]

theorem shiftLeft_or_of_lt {m n : Nat} (h : m < 2 ^ n) (b : Nat) : b <<< n ||| m = b * 2 ^ n + m := by
  rw [← Nat.shiftLeft_add_eq_or_of_lt h, Nat.shiftLeft_eq]

theorem setWidth_shiftLeft_toNat (b : Byte) {n : Nat} (h : n ≤ 24) : (b.setWidth 32 <<< n).toNat = b.toNat <<< n := by
  have hpow : b.toNat * 2 ^ n < 2 ^ 8 * 2 ^ 24 :=
    Nat.mul_lt_mul_of_lt_of_le b.isLt (Nat.pow_le_pow_right (by decide) h) (by decide)
  rw [BitVec.toNat_shiftLeft, BitVec.toNat_setWidth_of_le (by decide), Nat.shiftLeft_eq]
  exact Nat.mod_eq_of_lt hpow

theorem fromBe32_toNat (x y z w : Byte) (S : List Byte) :
    (fromBe32 (x :: y :: z :: w :: S)).toNat = x.toNat * 2 ^ 24 + y.toNat * 2 ^ 16 + z.toNat * 2 ^ 8 + w.toNat := by
  have hy := y.isLt
  have hz := z.isLt
  have hw := w.isLt
  rw [fromBe32, BitVec.toNat_or, BitVec.toNat_or, BitVec.toNat_or, setWidth_shiftLeft_toNat x (by decide),
    setWidth_shiftLeft_toNat y (by decide), setWidth_shiftLeft_toNat z (by decide),
    BitVec.toNat_setWidth_of_le (by decide), Nat.or_assoc, Nat.or_assoc, shiftLeft_or_of_lt hw,
    shiftLeft_or_of_lt (n := 16) (by omega), shiftLeft_or_of_lt (n := 24) (by omega), Nat.add_assoc, Nat.add_assoc]

/-- Byte j of a sequence of words is byte j mod 4 of word j / 4. -/
theorem flatMap_be32_getD (ws : List Word) (j : Nat) :
    (ws.flatMap be32).getD j 0 = (be32 (ws.getD (j / 4) 0)).getD (j % 4) 0 := by
  induction ws generalizing j with
  | nil =>
    have hj : j % 4 < 4 := Nat.mod_lt _ (by decide)
    exact BitVec.eq_of_toNat_eq (by rw [be32_getD_toNat _ hj]; simp)
  | cons w ws ih =>
    rw [List.flatMap_cons]
    by_cases hj : j < 4
    · rw [List.getD_append _ _ _ _ hj, Nat.div_eq_of_lt hj, Nat.mod_eq_of_lt hj, List.getD_cons_zero]
    · rw [List.getD_append_right _ _ _ _ (Nat.not_lt.mp hj), be32_length, ih, ← Nat.mod_eq_sub_mod (by omega),
        show j / 4 = (j - 4) / 4 + 1 by omega, List.getD_cons_succ]

/-! ## Padding (R121) -/

theorem sha1Pad_length (M : List Byte) : (sha1Pad M).length = 64 * ((M.length + 8) / 64 + 1) := by
  simp only [sha1Pad, padZeros, List.length_append, List.length_singleton, rep_length, be64_length]
  omega

/-- Settles O51: the padding's zero count is the least that leaves 8 bytes of the last block. -/
theorem padEndsInTheBitLength : Obligations.PadEndsInTheBitLength := by
  refine ⟨fun M hM => ⟨padZeros M.length, rfl, Nat.mod_eq_of_lt (by omega), ?_, fun z' hz' => ?_, ?_, sha1Pad_length M⟩,
    fun c => ⟨be64_length c, fun i hi => be64_getD_toNat c hi⟩⟩ <;> unfold padZeros <;> omega

/-! ## The message schedule (R122, R125) -/

theorem rotl32_eq_rotateLeft (x : Word) {n : Nat} (h : n < 32) : rotl32 x n = x.rotateLeft n := by
  rw [rotl32, BitVec.rotateLeft, BitVec.rotateLeftAux, Nat.mod_eq_of_lt h]

theorem blockWords_getD {n t : Nat} (h : t < n) (bs : List Byte) :
    (blockWords n bs).getD t 0 = fromBe32 ((bs.drop (4 * t)).take 4) := by
  induction n generalizing t bs with
  | zero => omega
  | succ n ih =>
    cases t with
    | zero => rfl
    | succ t => rw [blockWords, List.getD_cons_succ, ih (by omega), List.drop_drop, Nat.mul_succ, Nat.add_comm]

theorem exists_schedule_eq_append (n : Nat) (W : List Word) : ∃ V, schedule n W = W ++ V := by
  induction n generalizing W with
  | zero => exact ⟨[], (List.append_nil W).symm⟩
  | succ n ih =>
    obtain ⟨V, hV⟩ := ih (W ++ [nextWord W])
    exact ⟨nextWord W :: V, by rw [schedule, hV, List.append_assoc, List.singleton_append]⟩

theorem schedule_getD_of_lt (n : Nat) {W : List Word} {t : Nat} (h : t < W.length) :
    (schedule n W).getD t 0 = W.getD t 0 := by
  obtain ⟨V, hV⟩ := exists_schedule_eq_append n W
  rw [hV, List.getD_append _ _ _ _ h]

/-- Every word the schedule adds is the next word of those before it. -/
theorem schedule_getD_eq_nextWord {n t : Nat} {W : List Word} (hlo : W.length ≤ t) (hhi : t < W.length + n) :
    (schedule n W).getD t 0 = nextWord ((schedule n W).take t) := by
  induction n generalizing W with
  | zero => omega
  | succ n ih =>
    rw [schedule]
    rcases Nat.eq_or_lt_of_le hlo with rfl | hlt
    · obtain ⟨V, hV⟩ := exists_schedule_eq_append n (W ++ [nextWord W])
      rw [hV, List.append_assoc, List.take_left, List.getD_append_right _ _ _ _ (Nat.le_refl _), Nat.sub_self,
        List.singleton_append, List.getD_cons_zero]
    · exact ih (by simpa using hlt) (by simpa [Nat.add_right_comm, Nat.add_assoc] using hhi)

theorem nextWord_take {W : List Word} {t : Nat} (hpos : 0 < t) (h : t ≤ W.length) :
    nextWord (W.take t) =
      (W.getD (t - 3) 0 ^^^ W.getD (t - 8) 0 ^^^ W.getD (t - 14) 0 ^^^ W.getD (t - 16) 0).rotateLeft 1 := by
  have htake : ∀ k, 0 < k → (W.take t).getD (t - k) 0 = W.getD (t - k) 0 := fun k hk => by
    simp only [List.getD_eq_getElem?_getD, List.getElem?_take_of_lt (show t - k < t by omega)]
  simp only [nextWord, List.length_take_of_le h, htake _ (show 0 < 3 by decide), htake _ (show 0 < 8 by decide),
    htake _ (show 0 < 14 by decide), htake _ (show 0 < 16 by decide), rotl32_eq_rotateLeft _ (show 1 < 32 by decide)]

/-- The 80 words W[t] of a block. -/
def blockSchedule (block : List Byte) : List Word := schedule 64 (blockWords 16 block)

@[simp] theorem blockSchedule_length (block : List Byte) : (blockSchedule block).length = 80 := by
  simp [blockSchedule]

theorem blockSchedule_getD_toNat {block : List Byte} (hlen : block.length = 64) {t : Nat} (h : t < 16) :
    ((blockSchedule block).getD t 0).toNat =
      (block.getD (4 * t) 0).toNat * 2 ^ 24 + (block.getD (4 * t + 1) 0).toNat * 2 ^ 16 +
      (block.getD (4 * t + 2) 0).toNat * 2 ^ 8 + (block.getD (4 * t + 3) 0).toNat := by
  have hbyte : ∀ k, k < 64 → block.drop k = block.getD k 0 :: block.drop (k + 1) := fun k hk => by
    rw [List.getD_eq_getElem _ _ (by omega), List.drop_eq_getElem_cons]
  have hfour : (block.drop (4 * t)).take 4 =
      [block.getD (4 * t) 0, block.getD (4 * t + 1) 0, block.getD (4 * t + 2) 0, block.getD (4 * t + 3) 0] := by
    rw [hbyte (4 * t) (by omega), hbyte (4 * t + 1) (by omega), hbyte (4 * t + 2) (by omega),
      hbyte (4 * t + 3) (by omega)]
    rfl
  rw [blockSchedule, schedule_getD_of_lt _ (by simpa using h), blockWords_getD h, hfour, fromBe32_toNat]

theorem blockSchedule_recurrence (block : List Byte) {t : Nat} (hlo : 16 ≤ t) (hhi : t < 80) :
    (blockSchedule block).getD t 0 =
      ((blockSchedule block).getD (t - 3) 0 ^^^ (blockSchedule block).getD (t - 8) 0 ^^^
        (blockSchedule block).getD (t - 14) 0 ^^^ (blockSchedule block).getD (t - 16) 0).rotateLeft 1 := by
  rw [← nextWord_take (by omega) (by simpa using hhi.le)]
  exact schedule_getD_eq_nextWord (by simpa using hlo) (by simpa using hhi)

/-! ## The rounds (R123, R125) -/

theorem sha1F_getLsbD (t : Nat) (x y z : Word) {i : Nat} (h : i < 32) :
    (sha1F t x y z).getLsbD i = roundBit t (x.getLsbD i) (y.getLsbD i) (z.getLsbD i) := by
  have hchoose : ∀ p q r : Bool, (p && q || !p && r) = if p then q else r := by decide
  have hparity : ∀ p q r : Bool, ((p ^^ q) ^^ r) = decide ((p.toNat + q.toNat + r.toNat) % 2 = 1) := by decide
  have hmajority : ∀ p q r : Bool, (p && q || p && r || q && r) = decide (2 ≤ p.toNat + q.toNat + r.toNat) := by decide
  unfold sha1F roundBit
  by_cases h20 : t < 20
  · simp only [if_pos h20, ← hchoose, BitVec.getLsbD_or, BitVec.getLsbD_and, BitVec.getLsbD_not, h, decide_true,
      Bool.true_and]
  rw [if_neg h20, if_neg h20]
  by_cases h40 : t < 40
  · rw [if_pos h40, if_neg (by omega), ← hparity, BitVec.getLsbD_xor, BitVec.getLsbD_xor]
  rw [if_neg h40]
  by_cases h60 : t < 60
  · rw [if_pos h60, if_pos ⟨by omega, h60⟩, ← hmajority]
    simp only [BitVec.getLsbD_or, BitVec.getLsbD_and]
  · rw [if_neg h60, if_neg (by omega), ← hparity, BitVec.getLsbD_xor, BitVec.getLsbD_xor]

theorem sha1K_toNat : ∀ t < 80, (sha1K t).toNat = roundConstant t := by decide

theorem sha1Rounds_concat (t : Nat) (ws : List Word) (w : Word) (H : Chain) :
    sha1Rounds t (ws ++ [w]) H = sha1Round (t + ws.length) w (sha1Rounds t ws H) := by
  induction ws generalizing t H with
  | nil => rfl
  | cons v ws ih => rw [List.cons_append, sha1Rounds_cons, ih, sha1Rounds_cons, List.length_cons, Nat.add_right_comm,
      Nat.add_assoc]

/-- The working words a to e after the first `t` rounds of `Compress`. -/
def workingWords (H : Chain) (block : List Byte) (t : Nat) : Chain := sha1Rounds 0 ((blockSchedule block).take t) H

theorem workingWords_succ (H : Chain) (block : List Byte) {t : Nat} (h : t < 80) :
    workingWords H block (t + 1) = sha1Round t ((blockSchedule block).getD t 0) (workingWords H block t) := by
  have ht : t < (blockSchedule block).length := by simpa using h
  rw [workingWords, ← List.take_concat_get' _ _ ht, sha1Rounds_concat, List.length_take_of_le ht.le, Nat.zero_add,
    List.getD_eq_getElem _ _ ht, workingWords]

/-- `Compress` adds each working word of round 80 to its chaining word. -/
theorem compress_eq (H : Chain) (block : List Byte) :
    compress H block =
      { a := H.a + (workingWords H block 80).a, b := H.b + (workingWords H block 80).b,
        c := H.c + (workingWords H block 80).c, d := H.d + (workingWords H block 80).d,
        e := H.e + (workingWords H block 80).e } := by
  rw [workingWords, List.take_of_length_le (by simp)]
  rfl

theorem sha1Round_a_toNat {t : Nat} (h : t < 80) (w : Word) (H : Chain) :
    (sha1Round t w H).a.toNat =
      ((H.a.rotateLeft 5).toNat + (sha1F t H.b H.c H.d).toNat + H.e.toNat + roundConstant t + w.toNat) % 2 ^ 32 := by
  rw [← rotl32_eq_rotateLeft _ (by decide), ← sha1K_toNat t h]
  simp only [sha1Round, BitVec.toNat_add, Nat.mod_add_mod]

theorem sha1Round_c (t : Nat) (w : Word) (H : Chain) : (sha1Round t w H).c = H.b.rotateLeft 30 :=
  rotl32_eq_rotateLeft _ (by decide)

/-! ## The digest (R126) -/

theorem chainBytes_eq_flatMap (H : Chain) : chainBytes H = (chainWords H).flatMap be32 := rfl

theorem chainBytes_getD_toNat (H : Chain) (j : Nat) :
    ((chainBytes H).getD j 0).toNat = ((chainWords H).getD (j / 4) 0).toNat / 256 ^ (3 - j % 4) % 256 := by
  rw [chainBytes_eq_flatMap, flatMap_be32_getD, be32_getD_toNat _ (Nat.mod_lt _ (by decide))]

/-- SHA-1 of a message, its number of blocks written out. -/
theorem sha1_eq_chainBytes (M : List Byte) :
    sha1 M = chainBytes (compressBlocks ((M.length + 8) / 64 + 1) (sha1Pad M) sha1Init) := by
  rw [sha1_eq, sha1Pad_length, Nat.mul_div_cancel_left _ (by decide)]

/-- Settles O52: the words are the block's schedule and the working words of each round, the chain that of the first
`n` blocks. -/
theorem sha1FollowsItsRecurrences : Obligations.Sha1FollowsItsRecurrences := by
  refine ⟨fun H block hlen => ?_, fun M _ => ?_⟩
  · refine ⟨fun t => (blockSchedule block).getD t 0,
      fun t => sha1F t (workingWords H block t).b (workingWords H block t).c (workingWords H block t).d,
      fun t => (workingWords H block t).a, fun t => (workingWords H block t).b, fun t => (workingWords H block t).c,
      fun t => (workingWords H block t).d, fun t => (workingWords H block t).e,
      fun t ht => blockSchedule_getD_toNat hlen ht, fun t hlo hhi => blockSchedule_recurrence block hlo hhi,
      ⟨rfl, rfl, rfl, rfl, rfl⟩, fun t ht => ?_, ?_⟩
    · simp only [workingWords_succ H block ht]
      exact ⟨fun i hi => sha1F_getLsbD t _ _ _ hi, sha1Round_a_toNat ht _ _, rfl, sha1Round_c _ _ _, rfl, rfl⟩
    · rw [compress_eq]
      exact ⟨BitVec.toNat_add .., BitVec.toNat_add .., BitVec.toNat_add .., BitVec.toNat_add .., BitVec.toNat_add ..⟩
  · refine ⟨fun n => compressBlocks n (sha1Pad M) sha1Init, rfl, fun n _ => compressBlocks_succ n _ _, sha1_length M,
      fun j _ => ?_⟩
    rw [sha1_eq_chainBytes, chainBytes_getD_toNat]

/-! ## HMAC (R130 to R132) -/

theorem rep_zero_getD (n i : Nat) : (rep 0 n).getD i 0 = 0 := by
  by_cases hi : i < n
  · exact List.getD_replicate _ hi
  · exact List.getD_eq_default _ _ (by simpa using hi)

theorem zeroPad_getD (n : Nat) (A : List Byte) (i : Nat) : (zeroPad n A).getD i 0 = A.getD i 0 := by
  rw [zeroPad_eq]
  by_cases hi : i < A.length
  · exact List.getD_append _ _ _ _ hi
  · rw [List.getD_append_right _ _ _ _ (Nat.not_lt.mp hi), rep_zero_getD,
      List.getD_eq_default _ _ (Nat.not_lt.mp hi)]

theorem xorBytes_getD {A : List Byte} {i : Nat} (h : i < A.length) (b : Byte) :
    (xorBytes A b).getD i 0 = A.getD i 0 ^^^ b := by
  simp [xorBytes, h]

/-- A key of at most 64 bytes is not hashed. -/
theorem hmacKeyBlock_of_length_le {key : List Byte} (h : key.length ≤ 64) : hmacKeyBlock key = zeroPad 64 key :=
  congrArg (zeroPad 64) (if_neg (Nat.not_lt.mpr h))

/-- A key of more than 64 bytes is hashed. -/
theorem hmacKeyBlock_of_lt_length {key : List Byte} (h : 64 < key.length) : hmacKeyBlock key = zeroPad 64 (sha1 key) :=
  congrArg (zeroPad 64) (if_pos h)

theorem hmacKeyBlock_eq_zeroPad (key : List Byte) :
    ∃ k, (key.length > 64 → k = sha1 key ∧ k.length = 20) ∧ (key.length ≤ 64 → k = key) ∧
      hmacKeyBlock key = zeroPad 64 k := by
  by_cases h : key.length ≤ 64
  · exact ⟨key, fun hgt => absurd h (Nat.not_le.mpr hgt), fun _ => rfl, hmacKeyBlock_of_length_le h⟩
  · exact ⟨sha1 key, fun _ => ⟨rfl, sha1_length key⟩, fun hle => absurd hle h,
      hmacKeyBlock_of_lt_length (Nat.not_le.mp h)⟩

theorem hmacSha1_eq (key msg : List Byte) :
    hmacSha1 key msg = sha1 (xorBytes (hmacKeyBlock key) 0x5C ++ sha1 (xorBytes (hmacKeyBlock key) 0x36 ++ msg)) := by
  rw [hmacSha1]

theorem zeroPad_append_zero {n : Nat} {A : List Byte} (h : A.length < n) : zeroPad n (A ++ [0]) = zeroPad n A := by
  obtain ⟨m, hm⟩ : ∃ m, n - A.length = m + 1 := ⟨n - A.length - 1, by omega⟩
  rw [zeroPad_eq, zeroPad_eq, List.length_append, List.length_singleton, Nat.sub_add_eq, hm, Nat.add_sub_cancel,
    List.append_assoc]
  rfl

/-- Settles O53: both pads and every key case, by the key block. -/
theorem hmacKeyCases : Obligations.HmacKeyCases := by
  refine ⟨fun key msg => ?_, rfl, fun key _ hle => hmacKeyBlock_of_length_le (by omega), fun key h => ?_,
    fun key h => ⟨sha1_length key, hmacKeyBlock_of_lt_length h⟩, fun key msg h => ?_⟩
  · obtain ⟨k, hlong, hshort, hblock⟩ := hmacKeyBlock_eq_zeroPad key
    have hlen := hmacKeyBlock_length key
    have hpad : ∀ i < 64, ∀ b, (xorBytes (hmacKeyBlock key) b).getD i 0 = k.getD i 0 ^^^ b := fun i hi b => by
      rw [xorBytes_getD (by omega), hblock, zeroPad_getD]
    exact ⟨k, xorBytes (hmacKeyBlock key) 0x36, xorBytes (hmacKeyBlock key) 0x5C, hlong, hshort,
      (xorBytes_length _ _).trans hlen, (xorBytes_length _ _).trans hlen, fun i hi => ⟨hpad i hi _, hpad i hi _⟩,
      hmacSha1_eq key msg, hmacSha1_length key msg⟩
  · rw [hmacKeyBlock_of_length_le h.le, zeroPad_eq, h]
    exact List.append_nil key
  · rw [hmacSha1_eq, hmacSha1_eq, hmacKeyBlock_of_length_le h.le, hmacKeyBlock_of_length_le (by simpa using h),
      zeroPad_append_zero h]

end Sys2Proof.Machine
end

section
/-! HOTP (42_hotp.md): truncation (R152), reduction (R153) and the code string (R154) as numbers, the completions of HOTP
and HOTP.T (R157), and a command run again on the state it left (R155). -/

namespace Sys2Proof.Machine

/-! ## Truncation and reduction (R152, R153) -/

/-- The offset is the low half of the last byte, and the four bytes from it on are one big-endian word. -/
theorem dynTrunc_eq_fromBe32 (D : List Byte) :
    dynTrunc D =
      let offset := (D.getD 19 0).toNat % 16
      fromBe32 [D.getD offset 0 &&& 0x7F, D.getD (offset + 1) 0, D.getD (offset + 2) 0, D.getD (offset + 3) 0] := by
  have hoff : (D.getD 19 0 &&& 0x0F#8).toNat = (D.getD 19 0).toNat % 16 :=
    (BitVec.toNat_and ..).trans (Nat.and_two_pow_sub_one_eq_mod _ 4)
  simp only [dynTrunc, hoff]
  rfl

/-- Settles O54: the masked first byte is its remainder by 128, and the word is the sum of its bytes. -/
theorem dynTruncReadsFourBytes : Obligations.DynTruncReadsFourBytes := by
  intro D _
  have htop : ∀ b : Byte, (b &&& 0x7F).toNat = b.toNat % 128 := fun b =>
    (BitVec.toNat_and ..).trans (Nat.and_two_pow_sub_one_eq_mod _ 7)
  refine ⟨by omega, ?_, dynTrunc_lt D⟩
  rw [dynTrunc_eq_fromBe32, fromBe32_toNat, htop]

/-- Settles O55: the modulus is at most that of nine digits. -/
theorem codeValueIsTheRemainder : Obligations.CodeValueIsTheRemainder := by
  intro b d hb _ hd
  have hmod : 10 ^ d ≤ 10 ^ 9 := Nat.pow_le_pow_right (by decide) hd
  exact ⟨codeValue_toNat b d, codeValue_lt b d, by omega, by omega⟩

/-! ## The code string (R154) -/

theorem codeStr_getElem_toNat (v : Word) {d i : Nat} (h : i < (codeStr v d).length) :
    (codeStr v d)[i].toNat = 0x30 + v.toNat / 10 ^ (d - 1 - i) % 10 := by
  simp only [codeStr, List.getElem_map, List.getElem_range, BitVec.toNat_ofNat]
  omega

/-- The last character is the last decimal digit, and the characters before it spell the rest of the number. -/
theorem codeStr_succ (v : Word) (d : Nat) :
    codeStr v (d + 1) = codeStr (v / 10) d ++ [BitVec.ofNat 8 (0x30 + v.toNat % 10)] := by
  have hdigit : ∀ i < d, v.toNat / 10 ^ (d + 1 - 1 - i) = (v / 10).toNat / 10 ^ (d - 1 - i) := fun i hi => by
    rw [show d + 1 - 1 - i = d - 1 - i + 1 by omega, Nat.pow_succ', ← Nat.div_div_eq_div_mul]
    rfl
  rw [codeStr, List.range_succ, List.map_append, codeStr]
  congr 1
  · exact List.map_congr_left fun i hi => by rw [hdigit i (List.mem_range.mp hi)]
  · simp

theorem decimalValue_concat (S : List Byte) (ch : Byte) :
    decimalValue (S ++ [ch]) = 10 * decimalValue S + (ch.toNat - 0x30) := by
  simp only [decimalValue, List.foldl_append, List.foldl_cons, List.foldl_nil]

/-- Read as a decimal number, the code string gives its value back. -/
theorem decimalValue_codeStr {v : Word} {d : Nat} (h : v.toNat < 10 ^ d) : decimalValue (codeStr v d) = v.toNat := by
  induction d generalizing v with
  | zero => exact (Nat.lt_one_iff.mp h).symm
  | succ d ih =>
    have hdiv : (v / 10).toNat = v.toNat / 10 := rfl
    have hrest : decimalValue (codeStr (v / 10) d) = v.toNat / 10 := ih (by rw [hdiv]; omega)
    have hlast : (BitVec.ofNat 8 (0x30 + v.toNat % 10)).toNat = 0x30 + v.toNat % 10 := by
      rw [BitVec.toNat_ofNat]; omega
    rw [codeStr_succ, decimalValue_concat, hrest, hlast]
    omega

/-- Settles O56: each character is its digit, and the digits spell the value. -/
theorem codeStringSpellsTheCode : Obligations.CodeStringSpellsTheCode := by
  intro v d _ _ hv
  refine ⟨codeStr_length v d, fun ch hch => ?_, fun i hi => ?_, decimalValue_codeStr hv⟩
  · obtain ⟨i, hi, rfl⟩ := List.mem_iff_getElem.mp hch
    rw [codeStr_getElem_toNat v hi]
    omega
  · have hi' : i < (codeStr v d).length := by rwa [codeStr_length]
    rw [List.getD_eq_getElem _ _ hi', codeStr_getElem_toNat v hi']

/-! ## HOTP and HOTP.T (R156, R157) -/

theorem complete_finished (o : Result) (s : State) : Finished o.matched o.err (complete o s) :=
  ⟨complete_busy o s, complete_done o s, complete_matched o s, complete_err o s⟩

/-- A completion with the record of R156 holds the code of its key and counter, step by step. -/
theorem complete_holdsCode {kw : Option (List Byte)} {key : List Byte} {c : DWord} {d : Nat}
    (h : (hotpResult kw key c d).Fits) (s : State) : HoldsCode key c d (complete (hotpResult kw key c d) s) := by
  refine ⟨complete_ctr _ s, complete_digest _ s h.digest, complete_trunc _ s, ?_, ?_⟩
  · rw [complete_code, complete_trunc]
    exact codeValue_toNat _ d
  · rw [complete_codeStr _ s h.str, complete_code]
    simp only [hotpResult, zeroPad_eq, codeStr_length, Config.codeStrMax]

/-- Settles O19: the check passes, and the completion writes no key. -/
theorem hotpGeneratesTheCode : Obligations.HotpGeneratesTheCode := by
  intro s hs hlen
  have hc : checkArgs Instr.hotp.op.toNat Instr.hotp.ksrc s = 0 :=
    checkArgs_eq_zero.mpr ⟨fun _ => hs, fun h => absurd h (by decide), fun h => absurd h (by decide), fun _ _ => hlen⟩
  have hfits := resultOf_fits hc
  obtain ⟨hkeyLen, -⟩ := complete_keyKept hfits rfl s
  exact ⟨_, exec_of_check_eq_zero hc, complete_holdsCode hfits s, complete_finished _ s,
    complete_registersKept _ s, hkeyLen, complete_bytesKept_of_none hfits rfl s⟩

/-- Settles O20: the check passes, and the completion writes the key it decoded. -/
theorem hotpTextGeneratesTheCode : Obligations.HotpTextGeneratesTheCode := by
  intro s hs hlen
  have hc : checkArgs Instr.hotpT.op.toNat Instr.hotpT.ksrc s = 0 :=
    checkArgs_eq_zero.mpr ⟨fun _ => hs, fun h => absurd h (by decide), fun _ => hlen, fun _ h => absurd h (by decide)⟩
  have hfits := resultOf_fits hc
  exact ⟨_, exec_of_check_eq_zero hc, complete_holdsCode hfits s, complete_holdsKey hfits rfl s, complete_finished _ s,
    complete_registersKept _ s, complete_bytesKept hfits s⟩

/-! ## A command run again (R155, R213) -/

/-- On every state that agrees with `s` on the row of R89, the command completes with one and the same record, which
writes a key only where the row does not read KEY. -/
theorem exists_record_of_row (i : Instr) (s : State) :
    ∃ o : Result, o.Fits ∧ (i.op.toNat ≥ 2 → i.ksrc = false → o.keyWrite = none) ∧
      ∀ t, ReadsSame i s t → exec i t = .next (complete o t) := by
  by_cases hc : checkArgs i.op.toNat i.ksrc s = 0
  · refine ⟨resultOf i s, resultOf_fits hc, fun hop hk => ?_, fun t h => ?_⟩
    · rw [resultOf_keyWrite, if_neg]
      rintro (rfl | h)
      · exact absurd hop (by decide)
      · exact absurd (hk.symm.trans h) (by decide)
    · rw [exec_of_check_eq_zero ((checkArgs_congr h).trans hc), resultOf_congr h hc]
  · refine ⟨_, Result.fits_error (checkArgs i.op.toNat i.ksrc s), fun _ _ => rfl, fun t h => ?_⟩
    rw [exec_of_check_ne_zero ((checkArgs_congr h).trans_ne hc), checkArgs_congr h]
    rfl

theorem readsSame_refl (i : Instr) (s : State) : ReadsSame i s s :=
  readsSame_iff.mpr ⟨fun _ => ⟨rfl, rfl⟩, fun _ => rfl, fun _ => ⟨rfl, rfl⟩,
    fun _ => ⟨rfl, rfl, fun _ _ _ _ => rfl⟩, fun _ => ⟨rfl, fun _ _ _ => rfl⟩, fun _ _ => ⟨rfl, fun _ _ _ => rfl⟩⟩

/-- A completion changes no register of the row of R89, for a record that writes no key the row reads. -/
theorem readsSame_complete {i : Instr} {o : Result} (ho : o.Fits)
    (hk : i.op.toNat ≥ 2 → i.ksrc = false → o.keyWrite = none) (s : State) : ReadsSame i s (complete o s) := by
  have hr := complete_registersKept o s
  have hbytes := complete_bytesKept ho s
  have hcand := (State.buf_eq_iff _ _ _).mp (hbytes.buf (b := .cand) (by decide))
  have htext := (State.buf_eq_iff _ _ _).mp (hbytes.buf (b := .text) (by decide))
  refine readsSame_iff.mpr ⟨fun _ => ⟨hr.hash, hr.digits⟩, fun _ => hr.counter, fun _ => ⟨hr.time, hr.stepSecs⟩,
    fun _ => ⟨hr.window, hr.candLen, fun _ i _ hi => hcand i hi⟩, fun _ => ⟨hr.textLen, fun i _ hi => htext i hi⟩,
    fun hop hb => ?_⟩
  obtain ⟨hlen, hkey⟩ := complete_keyKept ho (hk hop hb) s
  exact ⟨hlen, fun i _ hi => (State.buf_eq_iff _ _ _).mp hkey i hi⟩

/-- A record completed a second time leaves the key as the first time. -/
theorem complete_keyKept_again {o : Result} (ho : o.Fits) (s : State) :
    KeyKept (complete o s) (complete o (complete o s)) := by
  cases hk : o.keyWrite with
  | none => exact complete_keyKept ho hk _
  | some k => exact complete_keyKept_complete ho hk s _

/-- Settles O38: the first run keeps the row the command reads, so the second completes with the same record. -/
theorem repeatingACommandRepeatsItsOutcome : Obligations.RepeatingACommandRepeatsItsOutcome := by
  intro i s
  obtain ⟨o, ho, hk, hexec⟩ := exists_record_of_row i s
  exact ⟨_, _, hexec s (readsSame_refl i s), hexec _ (readsSame_complete ho hk s), complete_sameResults ho s _,
    complete_keyKept_again ho s, complete_registersKept o _⟩

end Sys2Proof.Machine
end

section
/-! TOTP (43_totp.md): time to counter as one division and its intervals (R171, R172), and the completions of TOTP and
TOTP.T (R173), as those of HOTP and HOTP.T on the derived counter. -/

namespace Sys2Proof.Machine

/-! ## Time to counter (R171, R172) -/

/-- Milliseconds to seconds and seconds to steps are a single division (R172). -/
theorem timeToCounter_toNat_single (t : DWord) (s : Word) :
    (timeToCounter t s).toNat = t.toNat / (1000 * s.toNat) := by
  rw [timeToCounter_toNat, Nat.div_div_eq_div_mul]

/-- The largest counter is that of the largest time with a step of one second (R171). -/
theorem timeToCounter_le (t : DWord) (s : Word) : (timeToCounter t s).toNat ≤ 18446744073709551 := by
  have hstep : t.toNat / 1000 / s.toNat ≤ t.toNat / 1000 := Nat.div_le_self _ _
  have htime := t.isLt
  rw [timeToCounter_toNat]
  omega

/-- Settles O57: the interval and the step at its end are those of the single division. -/
theorem timeToCounterForms : Obligations.TimeToCounterForms := by
  intro t s hs
  have hpos : 0 < 1000 * s.toNat := Nat.mul_pos (by decide) (Nat.pos_of_ne_zero fun h => hs (BitVec.eq_of_toNat_eq h))
  refine ⟨timeToCounter_toNat t s, timeToCounter_le t s, timeToCounter_lt t s, timeToCounter_toNat_single t s,
    fun c => ?_, fun u hu => ?_⟩
  · rw [timeToCounter_toNat_single, Nat.div_eq_iff hpos, Nat.mul_add_one, Nat.mul_comm c]
    omega
  · rw [timeToCounter_toNat_single, timeToCounter_toNat_single, hu, Nat.add_div_right _ hpos]

/-! ## TOTP is HOTP on the derived counter (R173) -/

/-- With a step there is, the check of a time command is that of HOTP, whatever COUNTER holds. -/
theorem checkArgs_withCounter {s : State} (h : s.stepSecs ≠ 0) (k : Bool) (c : DWord) :
    checkArgs 2 k { s with counter := c } = checkArgs 3 k s := by
  have hstep : ¬((3 : Nat) ≥ 3 ∧ s.stepSecs = 0) := fun hzero => h hzero.2
  rw [checkArgs, checkArgs, if_neg hstep]
  simp

/-- A completion neither reads nor writes COUNTER. -/
theorem complete_withCounter (o : Result) (s : State) (c : DWord) :
    complete o { s with counter := c } = { complete o s with counter := c } := by
  unfold complete
  cases o.keyWrite <;> rfl

/-- Two commands of the same check and the same record end alike but for COUNTER. -/
theorem exec_withCounter {i j : Instr} {s : State} {c : DWord}
    (hc : checkArgs j.op.toNat j.ksrc { s with counter := c } = checkArgs i.op.toNat i.ksrc s)
    (hr : resultOf j { s with counter := c } = resultOf i s) :
    ∃ t, exec i s = .next t ∧ t.counter = s.counter ∧
      exec j { s with counter := c } = .next { t with counter := c } := by
  by_cases h : checkArgs i.op.toNat i.ksrc s = 0
  · refine ⟨_, exec_of_check_eq_zero h, complete_counter _ s, ?_⟩
    rw [exec_of_check_eq_zero (hc.trans h), hr, complete_withCounter]
  · refine ⟨_, exec_of_check_ne_zero h, errorOutcome_counter _ s, ?_⟩
    rw [exec_of_check_ne_zero (hc.trans_ne h), hc, errorOutcome, complete_withCounter]
    rfl

/-- Settles O36: the check differs in STEP only, and the record has the counter HOTP finds in COUNTER. -/
theorem totpIsHotpOnTheDerivedCounter : Obligations.TotpIsHotpOnTheDerivedCounter := by
  intro s hs p hp
  obtain rfl | rfl := List.mem_pair.mp hp
  · exact exec_withCounter (checkArgs_withCounter hs false _) rfl
  · exact exec_withCounter (checkArgs_withCounter hs true _) rfl

/-! ## TOTP and TOTP.T (R173) -/

/-- Registers kept under a COUNTER put in place for the command are kept without it. -/
theorem RegistersKept.of_withCounter {s t : State} {c : DWord}
    (h : RegistersKept { s with counter := c } { t with counter := c }) (hcounter : t.counter = s.counter) :
    RegistersKept s t :=
  { h with counter := hcounter }

/-- Settles O21: what HOTP gives on the derived counter (O19, O36). -/
theorem totpGeneratesTheCode : Obligations.TotpGeneratesTheCode := by
  intro s hs hstep hlen
  obtain ⟨t, hexec, hcounter, hhotp⟩ := totpIsHotpOnTheDerivedCounter s hstep (.totp, .hotp) (by simp)
  obtain ⟨t', hexec', hcode, hfin, hregs, hkeyLen, hbytes⟩ :=
    hotpGeneratesTheCode { s with counter := timeToCounter s.time s.stepSecs } hs hlen
  obtain rfl := Host.Outcome.next.inj (hhotp.symm.trans hexec')
  exact ⟨t, hexec, hcode, hfin, hregs.of_withCounter hcounter, hkeyLen, hbytes⟩

/-- Settles O22: what HOTP.T gives on the derived counter (O20, O36). -/
theorem totpTextGeneratesTheCode : Obligations.TotpTextGeneratesTheCode := by
  intro s hs hstep hlen
  obtain ⟨t, hexec, hcounter, hhotp⟩ := totpIsHotpOnTheDerivedCounter s hstep (.totpT, .hotpT) (by simp)
  obtain ⟨t', hexec', hcode, hkey, hfin, hregs, hbytes⟩ :=
    hotpTextGeneratesTheCode { s with counter := timeToCounter s.time s.stepSecs } hs hlen
  obtain rfl := Host.Outcome.next.inj (hhotp.symm.trans hexec')
  exact ⟨t, hexec, hcode, hkey, hfin, hregs.of_withCounter hcounter, hbytes⟩

end Sys2Proof.Machine
end

section
/-! VERIFY (44_verify.md): the window as integers (R181) and the comparator as an existential over them (R182, R183), the
completions of VERIFY and VERIFY.T by one record (R184, R185), and a generated code presented again (R186, R187). -/

namespace Sys2Proof.Machine

/-! ## The window (R181) -/

/-- The counters searched are the integers `c0 + j >= 0` of the window. -/
theorem mem_window_iff (c0 w c : Nat) :
    (firstCandidate c0 w ≤ c ∧ c < firstCandidate c0 w + candidateCount c0 w) ↔
      ∃ j : Int, -(w : Int) ≤ j ∧ j ≤ w ∧ (c : Int) = c0 + j := by
  simp only [firstCandidate, candidateCount]
  constructor
  · rintro ⟨hlo, hhi⟩
    exact ⟨(c : Int) - c0, by omega, by omega, by omega⟩
  · rintro ⟨j, hlo, hhi, hc⟩
    omega

/-- A time moved by `j` steps, past or future, has its counter moved by `j`. -/
theorem timeStep_shift (now j : Int) {s : Int} (hs : 1 ≤ s) : (now + j * 1000 * s) / 1000 / s = now / 1000 / s + j := by
  rw [Int.mul_right_comm, Int.add_mul_ediv_right _ _ (by decide), Int.add_mul_ediv_right _ _ (by omega)]

/-- Settles O58: the range of the search, and the shift of the time form. -/
theorem windowCandidatesAreTheCountersInRange : Obligations.WindowCandidatesAreTheCountersInRange :=
  ⟨fun c0 w _ _ => ⟨mem_window_iff c0 w, rfl, by omega⟩, fun now j _ hs => timeStep_shift now j hs⟩

/-! ## The comparator (R182, R183) -/

theorem verifyMatch_iff (key : List Byte) (c0 : DWord) (w : Word) (d : Nat) (cand : List Byte) (clen : Word) :
    verifyMatch key c0 w d cand clen = true ↔ MatchesWindow key c0.toNat w.toNat d cand clen.toNat := by
  simp only [verifyMatch, Bool.and_eq_true, decide_eq_true_eq, anyCounter_eq_true, MatchesWindow]
  refine and_congr_right fun _ => ⟨?_, ?_⟩
  · rintro ⟨c, hlo, hhi, hcode⟩
    obtain ⟨j, hjlo, hjhi, hc⟩ := (mem_window_iff _ _ _).mp ⟨hlo, hhi⟩
    exact ⟨j, hjlo, hjhi, by omega, by rwa [← hc, Int.toNat_natCast]⟩
  · rintro ⟨j, hjlo, hjhi, hnonneg, hcode⟩
    obtain ⟨hlo, hhi⟩ := (mem_window_iff _ _ _).mpr ⟨j, hjlo, hjhi, Int.toNat_of_nonneg hnonneg⟩
    exact ⟨_, hlo, hhi, hcode⟩

/-- Settles O59: the search succeeds on a counter of its range, and the range is the window. -/
theorem verifyMatchIsTheWindowExistential : Obligations.VerifyMatchIsTheWindowExistential :=
  fun key c0 w d cand clen _ _ _ _ => verifyMatch_iff key c0 w d cand clen

/-- A code is a string of digits. -/
theorem hotpStr_digit {key : List Byte} {c : DWord} {d : Nat} (hlo : 1 ≤ d) (hhi : d ≤ 9) {ch : Byte}
    (h : ch ∈ hotpStr key c d) : 0x30 ≤ ch.toNat ∧ ch.toNat ≤ 0x39 := by
  obtain ⟨-, hdigits, -⟩ := codeStringSpellsTheCode _ d hlo hhi (codeValue_lt _ d)
  exact hdigits ch h

theorem State.bufAt_mem_take (s : State) {b : Buf} {i n : Nat} (hi : i < n) (hn : n ≤ b.size) :
    s.bufAt b i ∈ (s.buf b).take n := by
  rw [State.buf, Memory.take_readBytes _ _ hn]
  exact List.mem_iff_getElem.mpr ⟨i, by simpa using hi, Memory.readBytes_getElem _ _ _ _ _⟩

/-- A candidate that matches has the length DIGITS and is a string of digits (R182). -/
theorem candidate_of_matchesWindow {key : List Byte} {c0 w : Nat} {s : State} (hs : LegalCode s)
    (h : MatchesWindow key c0 w s.digits.toNat (s.buf .cand) s.candLen.toNat) :
    s.candLen = s.digits ∧
      ∀ i < s.digits.toNat, 0x30 ≤ (s.bufAt .cand i).toNat ∧ (s.bufAt .cand i).toNat ≤ 0x39 := by
  obtain ⟨-, hlo, hhi⟩ := hs
  obtain ⟨hlen, j, -, -, -, hcode⟩ := h
  exact ⟨BitVec.eq_of_toNat_eq hlen, fun i hi =>
    hotpStr_digit hlo hhi (hcode ▸ s.bufAt_mem_take hi (hhi.trans (by decide)))⟩

/-! ## VERIFY and VERIFY.T (R184) -/

/-- The key write of a code command with the secret `k` (30_encoding.md R82). -/
def secretWrite (i : Instr) (k : List Byte) : Option (List Byte) := if i.ksrc = true then some k else none

/-- A time command passes its check when the configuration is legal and it can take a secret. -/
theorem timeCommand_check_iff {i : Instr} (hi : i ∈ timeCommands) {s : State} :
    checkArgs i.op.toNat i.ksrc s = 0 ↔ LegalCode s ∧ s.stepSecs ≠ 0 ∧ ∃ k, TakesSecret i k s := by
  have hop : ∀ i ∈ timeCommands, i.op.toNat ≥ 3 := by decide
  have h3 := hop i hi
  have h2 : i.op.toNat ≥ 2 := by omega
  have h1 : i.op.toNat ≠ 1 := by omega
  rw [checkArgs_eq_zero]
  cases hk : i.ksrc <;> simp [h3, h2, h1, hk, LegalCode, TakesSecret]

/-- The record of a generator is that of R156 with the secret it takes and the centre counter. -/
theorem resultOf_totp {g : Instr} (hg : g ∈ [Instr.totp, .totpT]) {k : List Byte} {s : State} (hk : TakesSecret g k s) :
    resultOf g s = hotpResult (secretWrite g k) k (centreCounter s) (digitCount s) := by
  obtain ⟨htext, hkey⟩ := hk
  obtain rfl | rfl := List.mem_pair.mp hg
  · obtain ⟨-, rfl⟩ := hkey rfl
    rfl
  · obtain ⟨-, rfl⟩ := htext rfl
    rfl

/-- The record of the comparator with the secret it takes. -/
theorem resultOf_verify {v : Instr} (hv : v ∈ [Instr.verify, .verifyT]) {k : List Byte} {s : State}
    (hk : TakesSecret v k s) : resultOf v s = verifyResult (secretWrite v k) k s := by
  obtain ⟨htext, hkey⟩ := hk
  obtain rfl | rfl := List.mem_pair.mp hv
  · obtain ⟨-, rfl⟩ := hkey rfl
    rfl
  · obtain ⟨-, rfl⟩ := htext rfl
    rfl

theorem mem_timeCommands_of_verify : ∀ v ∈ [Instr.verify, .verifyT], v ∈ timeCommands := by decide

theorem mem_timeCommands_of_totp : ∀ g ∈ [Instr.totp, .totpT], g ∈ timeCommands := by decide

/-- VERIFY and VERIFY.T on a legal configuration. -/
theorem exec_verify {v : Instr} (hv : v ∈ [Instr.verify, .verifyT]) {k : List Byte} {s : State} (hs : LegalCode s)
    (hstep : s.stepSecs ≠ 0) (hk : TakesSecret v k s) :
    exec v s = .next (complete (verifyResult (secretWrite v k) k s) s) ∧ (verifyResult (secretWrite v k) k s).Fits := by
  have hc := (timeCommand_check_iff (mem_timeCommands_of_verify v hv)).mpr ⟨hs, hstep, k, hk⟩
  rw [← resultOf_verify hv hk]
  exact ⟨exec_of_check_eq_zero hc, resultOf_fits hc⟩

theorem centreCounter_toNat (s : State) : (centreCounter s).toNat = s.time.toNat / 1000 / s.stepSecs.toNat :=
  timeToCounter_toNat _ _

/-- MATCH is the existential over the window about the centre counter (R183). -/
theorem verifyResult_matched_iff (kw : Option (List Byte)) (key : List Byte) (s : State) :
    (verifyResult kw key s).matched = true ↔
      MatchesWindow key (s.time.toNat / 1000 / s.stepSecs.toNat) s.window.toNat s.digits.toNat (s.buf .cand)
        s.candLen.toNat := by
  rw [← centreCounter_toNat]
  exact verifyMatch_iff _ _ _ _ _ _

/-- Every record of VERIFY, on error too: the key write, CTR and the flags, every code and digest zero (R185). -/
def verifyRecord (kw : Option (List Byte)) (c : DWord) (m : Bool) (e : BitVec 4) : Result :=
  { zeroResult with keyWrite := kw, ctr := c, matched := m, err := e }

theorem complete_codeZero (kw : Option (List Byte)) (c : DWord) (m : Bool) (e : BitVec 4) (s : State) :
    CodeZero (complete (verifyRecord kw c m e) s) :=
  ⟨complete_trunc _ s, complete_code _ s, complete_codeStr _ s rfl, complete_digest _ s rfl⟩

theorem complete_verifyResult_ctr (kw : Option (List Byte)) (key : List Byte) (s : State) :
    (complete (verifyResult kw key s) s).ctr.toNat = s.time.toNat / 1000 / s.stepSecs.toNat :=
  (congrArg BitVec.toNat (complete_ctr _ s)).trans (centreCounter_toNat s)

/-- Settles O23: the check passes, and the completion writes no key. -/
theorem verifyDecidesTheMatch : Obligations.VerifyDecidesTheMatch := by
  intro s hs hstep hlen
  have hk : TakesSecret .verify (keyString s) s := ⟨fun h => absurd h (by decide), fun _ => ⟨hlen, rfl⟩⟩
  obtain ⟨hexec, hfits⟩ := exec_verify (by decide) hs hstep hk
  obtain ⟨hkeyLen, -⟩ := complete_keyKept hfits rfl s
  exact ⟨_, _, hexec, complete_verifyResult_ctr _ _ s, complete_codeZero _ _ _ _ s, complete_finished _ s,
    verifyResult_matched_iff _ _ s, complete_registersKept _ s, hkeyLen, complete_bytesKept_of_none hfits rfl s⟩

/-- Settles O24: the check passes, and the completion writes the key it decoded. -/
theorem verifyTextDecidesTheMatch : Obligations.VerifyTextDecidesTheMatch := by
  intro s hs hstep hlen
  have hk : TakesSecret .verifyT (decodedKey s) s := ⟨fun _ => ⟨hlen, rfl⟩, fun h => absurd h (by decide)⟩
  obtain ⟨hexec, hfits⟩ := exec_verify (by decide) hs hstep hk
  exact ⟨_, _, hexec, complete_verifyResult_ctr _ _ s, complete_codeZero _ _ _ _ s, complete_holdsKey hfits rfl s,
    complete_finished _ s, verifyResult_matched_iff _ _ s, complete_registersKept _ s, complete_bytesKept hfits s⟩

/-- A candidate that is no string of DIGITS digits does not match, and is no error (60_exceptions.md R209 (d)). -/
theorem verify_wrongCandidate {v : Instr} (hv : v ∈ [Instr.verify, .verifyT]) {k : List Byte} {s : State}
    (hs : LegalCode s) (hstep : s.stepSecs ≠ 0) (hk : TakesSecret v k s)
    (hwrong : s.candLen ≠ s.digits ∨
      ∃ i, i < s.digits.toNat ∧ ¬(0x30 ≤ (s.bufAt .cand i).toNat ∧ (s.bufAt .cand i).toNat ≤ 0x39)) :
    ∃ t, exec v s = .next t ∧ t.matched = false ∧ t.err = 0 := by
  obtain ⟨hexec, -⟩ := exec_verify hv hs hstep hk
  refine ⟨_, hexec, (complete_matched _ s).trans (Bool.eq_false_iff.mpr fun hm => ?_), complete_err _ s⟩
  obtain ⟨hlen, hdigits⟩ := candidate_of_matchesWindow hs ((verifyResult_matched_iff _ _ s).mp hm)
  obtain hne | ⟨i, hi, hno⟩ := hwrong
  · exact hne hlen
  · exact hno (hdigits i hi)

/-- Settles O60: the same candidate under either key. -/
theorem wrongCandidateNeverMatches : Obligations.WrongCandidateNeverMatches := fun _ hs hstep hwrong =>
  ⟨fun hlen => verify_wrongCandidate (v := .verify) (by decide) hs hstep
      ⟨fun h => absurd h (by decide), fun _ => ⟨hlen, rfl⟩⟩ hwrong,
    fun hlen => verify_wrongCandidate (v := .verifyT) (by decide) hs hstep
      ⟨fun _ => ⟨hlen, rfl⟩, fun h => absurd h (by decide)⟩ hwrong⟩

/-! ## What VERIFY leaves behind (R185) -/

/-- The secret does not stand in CAND. -/
theorem TakesSecret.of_bytesKept {i : Instr} {k : List Byte} {s t : State} (h : TakesSecret i k s)
    (htextLen : t.textLen = s.textLen) (hkeyLen : t.keyLen = s.keyLen) (hbytes : BytesKeptOutside [.cand] s t) :
    TakesSecret i k t := by
  have htext := (State.buf_eq_iff _ _ _).mp (hbytes.buf (b := .text) (by decide))
  have hkey := (State.buf_eq_iff _ _ _).mp (hbytes.buf (b := .key) (by decide))
  obtain ⟨hdecoded, hstored⟩ := h
  refine ⟨fun hi => ?_, fun hi => ?_⟩
  · obtain ⟨hlen, hk⟩ := hdecoded hi
    rw [htextLen, textString_congr ⟨htextLen, fun i _ hi => htext i hi⟩ hlen]
    exact ⟨hlen, hk⟩
  · obtain ⟨hlen, hk⟩ := hstored hi
    rw [hkeyLen, keyString_congr ⟨hkeyLen, fun i _ hi => hkey i hi⟩ hlen]
    exact ⟨hlen, hk⟩

/-- The state with another window and candidate: WINDOW, CANDLEN and the byte memory. -/
def withCandidate (w l : Word) (mem : Memory) (s : State) : State := { s with window := w, candLen := l, mem := mem }

/-- Whatever WINDOW, CANDLEN and CAND hold, VERIFY completes with one and the same record but for MATCH. -/
theorem exists_verifyRecord {v : Instr} (hv : v ∈ [Instr.verify, .verifyT]) (s : State) :
    ∃ kw c e, (e = 0 → c = centreCounter s) ∧
      ∀ (w l : Word) (mem : Memory), BytesKeptOutside [.cand] s (withCandidate w l mem s) →
        ∃ m, exec v (withCandidate w l mem s) =
          .next (complete (verifyRecord kw c m e) (withCandidate w l mem s)) := by
  by_cases hc : checkArgs v.op.toNat v.ksrc s = 0
  · obtain ⟨hs, hstep, k, hk⟩ := (timeCommand_check_iff (mem_timeCommands_of_verify v hv)).mp hc
    refine ⟨secretWrite v k, centreCounter s, 0, fun _ => rfl, fun w l mem hbytes =>
      ⟨(verifyResult (secretWrite v k) k (withCandidate w l mem s)).matched, ?_⟩⟩
    obtain ⟨hexec, -⟩ := exec_verify (s := withCandidate w l mem s) hv hs hstep (hk.of_bytesKept rfl rfl hbytes)
    exact hexec
  · exact ⟨none, 0, checkArgs v.op.toNat v.ksrc s, fun he => absurd he hc, fun w l mem _ =>
      ⟨false, exec_of_check_ne_zero (s := withCandidate w l mem s) hc⟩⟩

/-- A completion neither reads nor writes WINDOW and CANDLEN, and reads no byte: two that differ in MATCH end alike but
for these registers and the memory. -/
theorem complete_withCandidate (o : Result) (m : Bool) (s : State) (w l : Word) (mem : Memory) :
    complete { o with matched := m } (withCandidate w l mem s) =
      { complete o s with
        window := w, candLen := l
        matched := (complete { o with matched := m } (withCandidate w l mem s)).matched
        mem := (complete { o with matched := m } (withCandidate w l mem s)).mem } := by
  unfold complete
  cases o.keyWrite <;> rfl

theorem Memory.read_writeBytes_congr {m m' : Memory} {x : Nat} (h : m.read x = m'.read x) (a : Nat) (vs : List Byte) :
    (m.writeBytes a vs).read x = (m'.writeBytes a vs).read x := by
  rw [Memory.read_writeBytes, Memory.read_writeBytes, h]

/-- A byte that two states share is the same after one completion of both. -/
theorem complete_read_congr {o o' : Result} (hkey : o.keyWrite = o'.keyWrite) (hstr : o.str = o'.str)
    (hdigest : o.digest = o'.digest) {s t : State} {a : Nat} (h : s.mem.read a = t.mem.read a) :
    (complete o s).mem.read a = (complete o' t).mem.read a := by
  rw [complete_mem, complete_mem, hkey, hstr, hdigest]
  refine Memory.read_writeBytes_congr (Memory.read_writeBytes_congr ?_ _ _) _ _
  cases o'.keyWrite with
  | none => exact h
  | some k => exact Memory.read_writeBytes_congr h _ _

/-- Settles O32: the two completions share their record but for MATCH. -/
theorem verifyLeavesNoCode : Obligations.VerifyLeavesNoCode := by
  intro s v hv
  obtain ⟨kw, c, e, hctr, hexec⟩ := exists_verifyRecord hv s
  obtain ⟨m, ht⟩ := hexec s.window s.candLen s.mem fun _ _ => rfl
  refine ⟨⟨_, ht, complete_codeZero kw c m e s, fun he => ?_⟩, fun w l cand hcand => ?_⟩
  · rw [complete_ctr, ← centreCounter_toNat, ← hctr ((complete_err _ s).symm.trans he)]
    rfl
  · have hbytes : BytesKeptOutside [.cand] s (withCandidate w l (s.mem.writeBytes Buf.cand.base cand) s) := fun a ha =>
      Memory.read_writeBytes_outside _ _ _ (hcand ▸ (Buf.not_holds_iff .cand a).mp (ha _ (by simp)))
    obtain ⟨m', hu⟩ := hexec w l _ hbytes
    exact ⟨_, _, ht, hu, complete_codeZero kw c m' e _, complete_withCandidate (verifyRecord kw c m e) m' s w l _,
      fun a ha => complete_read_congr rfl rfl rfl (hbytes a (by simpa using ha))⟩

/-! ## A generated code presented again (R186, R187) -/

/-- A generator that ends without error had a legal configuration, kept it, and left the code of its secret and its
counter at the front of CODE_STR. -/
theorem totp_leaves_code {g : Instr} (hg : g ∈ [Instr.totp, .totpT]) {s t : State} {k : List Byte}
    (hexec : exec g s = .next t) (herr : t.err = 0) (hk : TakesSecret g k s) :
    LegalCode s ∧ s.stepSecs ≠ 0 ∧ RegistersKept s t ∧
      (t.buf .codeStr).take s.digits.toNat = hotpStr k (centreCounter s) s.digits.toNat := by
  by_cases hc : checkArgs g.op.toNat g.ksrc s = 0
  · obtain ⟨hs, hstep, -⟩ := (timeCommand_check_iff (mem_timeCommands_of_totp g hg)).mp hc
    obtain rfl := Host.Outcome.next.inj ((exec_of_check_eq_zero hc).symm.trans hexec)
    refine ⟨hs, hstep, complete_registersKept _ s, ?_⟩
    rw [complete_codeStr _ s (resultOf_str_length hc), resultOf_totp hg hk]
    exact List.take_left' (codeStr_length _ _)
  · obtain rfl := Host.Outcome.next.inj ((exec_of_check_ne_zero hc).symm.trans hexec)
    exact absurd ((errorOutcome_err _ s).symm.trans herr) hc

/-- Times `n` whole steps apart have counters `n` apart (43_totp.md R172). -/
theorem timeToCounter_shift {t u : DWord} {s : Word} (hs : s ≠ 0) {n : Nat}
    (h : u.toNat = t.toNat + 1000 * s.toNat * n) : (timeToCounter u s).toNat = (timeToCounter t s).toNat + n := by
  have hpos : 0 < 1000 * s.toNat := Nat.mul_pos (by decide) (Nat.pos_of_ne_zero ((bitVec_ne_zero_iff s).mp hs))
  rw [timeToCounter_toNat_single, timeToCounter_toNat_single, h, Nat.add_mul_div_left _ _ hpos]

/-- The code of a counter at most `w` away from the centre matches. -/
theorem matchesWindow_of_near {key : List Byte} {c : DWord} {c0 w d : Nat} {cand : List Byte}
    (hcode : hotpStr key c d = cand.take d) (hlo : c0 ≤ c.toNat + w) (hhi : c.toNat ≤ c0 + w) :
    MatchesWindow key c0 w d cand d := by
  refine ⟨rfl, (c.toNat : Int) - c0, by omega, by omega, by omega, ?_⟩
  rwa [add_sub_cancel, Int.toNat_natCast, BitVec.ofNat_toNat, BitVec.setWidth_eq]

/-- Times `n` whole steps apart, one way or the other. -/
theorem timeToCounter_near {t u : DWord} {s : Word} (hs : s ≠ 0) {n : Nat}
    (h : u.toNat = t.toNat + 1000 * s.toNat * n ∨ u.toNat + 1000 * s.toNat * n = t.toNat) :
    (timeToCounter u s).toNat ≤ (timeToCounter t s).toNat + n ∧
      (timeToCounter t s).toNat ≤ (timeToCounter u s).toNat + n := by
  obtain hlater | hearlier := h
  · have := timeToCounter_shift hs hlater
    omega
  · have := timeToCounter_shift hs hearlier.symm
    omega

/-- Buffers that agree entry by entry have the same front. -/
theorem State.take_buf_eq {s t : State} {b c : Buf} {n : Nat} (hb : n ≤ b.size) (hc : n ≤ c.size)
    (h : ∀ i < n, t.bufAt c i = s.bufAt b i) : (t.buf c).take n = (s.buf b).take n := by
  rw [State.buf, State.buf, Memory.take_readBytes _ _ hb, Memory.take_readBytes _ _ hc, Memory.readBytes_eq_iff]
  exact h

/-- Settles O34: the counters lie `n` apart, one way or the other, so the window about the one holds the other. -/
theorem verifyAcceptsCodesWithinTheWindow : Obligations.VerifyAcceptsCodesWithinTheWindow := by
  intro g hg v hv s t u k n hexec herr hks hku hcfg hstep hlen hcand hn htime
  obtain ⟨⟨hhash, hlo, hhi⟩, hstep0, hr, hcode⟩ := totp_leaves_code hg hexec herr hks
  have hd : u.digits = s.digits := hcfg.2.trans hr.digits
  have hsu : u.stepSecs = s.stepSecs := hstep.trans hr.stepSecs
  have hlegal : LegalCode u := ⟨hcfg.1.trans (hr.hash.trans hhash), hd ▸ hlo, hd ▸ hhi⟩
  have hshown : hotpStr k (centreCounter s) u.digits.toNat = (u.buf .cand).take u.digits.toNat := by
    have hle : u.digits.toNat ≤ Buf.codeStr.size := hd ▸ hhi
    rw [State.take_buf_eq hle (hle.trans (by decide)) hcand, hd, hcode]
  have hnear : (centreCounter u).toNat ≤ (centreCounter s).toNat + n ∧
      (centreCounter s).toNat ≤ (centreCounter u).toNat + n := by
    rw [hr.time, hr.stepSecs] at htime
    rw [centreCounter, centreCounter, hsu]
    exact timeToCounter_near hstep0 htime
  obtain ⟨hexecv, -⟩ := exec_verify hv hlegal (hsu ▸ hstep0) hku
  refine ⟨_, hexecv, (complete_matched _ u).trans ((verifyResult_matched_iff _ _ u).mpr ?_), complete_err _ u⟩
  rw [hlen, ← centreCounter_toNat]
  exact matchesWindow_of_near hshown (by omega) (by omega)

/-- Settles O33: no step apart, which is within every window. -/
theorem verifyAcceptsTheCurrentCode : Obligations.VerifyAcceptsTheCurrentCode :=
  fun g hg v hv s t u k hexec herr hks hku hcfg ⟨htime, hstep⟩ hlen hcand =>
    verifyAcceptsCodesWithinTheWindow g hg v hv s t u k 0 hexec herr hks hku hcfg hstep hlen hcand (Nat.zero_le _)
      (.inl (by rw [htime, Nat.mul_zero, Nat.add_zero]))

end Sys2Proof.Machine
end

section
/-! Exceptions (60_exceptions.md): the error code of a completion as `Check` decides it (R207), each cause past the
command word as an equivalence (R203 to R206), the illegal words (R202), the error outcome (R208) and the absence of
traps (R200). -/

namespace Sys2Proof.Machine

/-! ## The error code is that of `Check` (R207) -/

/-- A command ends with the code its check gives, 0 included. -/
theorem exec_err (i : Instr) (s : State) : ∃ t, exec i s = .next t ∧ t.err = checkArgs i.op.toNat i.ksrc s := by
  by_cases hc : checkArgs i.op.toNat i.ksrc s = 0
  · exact ⟨_, exec_of_check_eq_zero hc, (complete_err _ s).trans ((resultOf_err i s).trans hc.symm)⟩
  · exact ⟨_, exec_of_check_ne_zero hc, errorOutcome_err _ s⟩

/-- When a command ends with a code, from when its check gives it. -/
theorem exec_err_iff {i : Instr} {s : State} {e : BitVec 4} {p : Prop} (h : checkArgs i.op.toNat i.ksrc s = e ↔ p) :
    ∃ t, exec i s = .next t ∧ (t.err = e ↔ p) := by
  obtain ⟨t, ht, he⟩ := exec_err i s
  exact ⟨t, ht, he ▸ h⟩

/-- A command never ends with a code its check never gives. -/
theorem exec_err_ne {i : Instr} {s : State} {e : BitVec 4} (h : checkArgs i.op.toNat i.ksrc s ≠ e) :
    ∃ t, exec i s = .next t ∧ t.err ≠ e := by
  obtain ⟨t, ht, he⟩ := exec_err i s
  exact ⟨t, ht, he ▸ h⟩

/-- A turn with BUSY = 1 ends with the code of `Check`, 0 included. -/
theorem engineTurn_err {s : State} (hb : s.busy = true) : ∃ t, engineTurn s = .next t ∧ t.err = check s := by
  obtain ⟨hb', -⟩ | ⟨i, -, hd, ht⟩ | ⟨why, -, hd, ht⟩ := engineTurn_cases s
  · exact absurd (hb'.symm.trans hb) (by decide)
  · obtain ⟨t, hexec, herr⟩ := exec_err i s
    exact ⟨t, ht.trans hexec, herr.trans (check_of_command hd).symm⟩
  · exact ⟨_, ht, (errorOutcome_err _ s).trans (check_of_illegal hd).symm⟩

/-! ## The causes past the command word (R203 to R206)

Each line of `Check` gives its code exactly when its condition is the first that holds. -/

section Causes

variable {op : Nat} {k : Bool} {s : State}

theorem checkArgs_eq_errHash_iff : checkArgs op k s = errHash ↔ op ≥ 2 ∧ s.hash ≠ 0 := by
  unfold checkArgs
  split_ifs with hHash
  · exact iff_of_true rfl hHash
  all_goals exact iff_of_false (by decide) hHash

theorem checkArgs_eq_errDigits_iff :
    checkArgs op k s = errDigits ↔ op ≥ 2 ∧ s.hash = 0 ∧ ¬(1 ≤ s.digits.toNat ∧ s.digits.toNat ≤ 9) := by
  unfold checkArgs
  split_ifs with hHash hDigits
  · exact iff_of_false (by decide) fun h => hHash.2 h.2.1
  · exact iff_of_true rfl ⟨hDigits.1, by_contra fun h => hHash ⟨hDigits.1, h⟩, by omega⟩
  all_goals exact iff_of_false (by decide) fun h => hDigits ⟨h.1, by omega⟩

/-- The conditions on HASH and DIGITS are those of a legal configuration. -/
theorem legalCode_iff_no_cause :
    (op ≥ 2 → LegalCode s) ↔ ¬(op ≥ 2 ∧ s.hash ≠ 0) ∧ ¬(op ≥ 2 ∧ (s.digits.toNat < 1 ∨ s.digits.toNat > 9)) := by
  rw [not_and, not_and, ← imp_and, LegalCode, not_not, not_or, not_lt, not_lt]

theorem checkArgs_eq_errStep_iff : checkArgs op k s = errStep ↔ op ≥ 3 ∧ LegalCode s ∧ s.stepSecs = 0 := by
  have hlegal := legalCode_iff_no_cause (op := op) (s := s)
  unfold checkArgs
  split_ifs with hHash hDigits hStep
  · exact iff_of_false (by decide) fun ⟨_, hl, _⟩ => (hlegal.mp fun _ => hl).1 hHash
  · exact iff_of_false (by decide) fun ⟨_, hl, _⟩ => (hlegal.mp fun _ => hl).2 hDigits
  · exact iff_of_true rfl ⟨hStep.1, hlegal.mpr ⟨hHash, hDigits⟩ (Nat.le_of_succ_le hStep.1), hStep.2⟩
  all_goals exact iff_of_false (by decide) fun ⟨hop, _, hz⟩ => hStep ⟨hop, hz⟩

theorem checkArgs_eq_errLen_iff :
    checkArgs op k s = errLen ↔ (op ≥ 2 → LegalCode s) ∧ (op ≥ 3 → s.stepSecs ≠ 0) ∧
      ((op = 1 ∨ k = true) ∧ s.textLen.toNat > 256 ∨ op ≥ 2 ∧ k = false ∧ s.keyLen.toNat > 160) := by
  have hlegal := legalCode_iff_no_cause (op := op) (s := s)
  unfold checkArgs
  split_ifs with hHash hDigits hStep hText hKey
  · exact iff_of_false (by decide) fun ⟨hl, _⟩ => (hlegal.mp hl).1 hHash
  · exact iff_of_false (by decide) fun ⟨hl, _⟩ => (hlegal.mp hl).2 hDigits
  · exact iff_of_false (by decide) fun ⟨_, hs, _⟩ => hs hStep.1 hStep.2
  · exact iff_of_true rfl ⟨hlegal.mpr ⟨hHash, hDigits⟩, not_and.mp hStep, .inl hText⟩
  · exact iff_of_true rfl ⟨hlegal.mpr ⟨hHash, hDigits⟩, not_and.mp hStep, .inr hKey⟩
  · exact iff_of_false (by decide) fun ⟨_, _, hlen⟩ => hlen.elim hText hKey

end Causes

theorem two_le_op_of_codeCommand : ∀ i ∈ codeCommands, i.op.toNat ≥ 2 := by decide

theorem three_le_op_of_timeCommand : ∀ i ∈ timeCommands, i.op.toNat ≥ 3 := by decide

/-- Settles O25: the line of HASH is the first past the command word, and asks for OP at least 2. -/
theorem hashErrorIffNotSha1 : Obligations.HashErrorIffNotSha1 := by
  intro s
  refine ⟨fun i hi => exec_err_iff (checkArgs_eq_errHash_iff.trans ?_), exec_err_ne fun h => ?_⟩
  · rw [and_iff_right (two_le_op_of_codeCommand i hi)]
  · exact absurd (checkArgs_eq_errHash_iff.mp h).1 (by decide)

/-- Settles O26: the line of DIGITS comes after that of HASH, and asks for OP at least 2. -/
theorem digitsErrorIffOutOfRange : Obligations.DigitsErrorIffOutOfRange := by
  intro s
  refine ⟨fun hhash i hi => exec_err_iff (checkArgs_eq_errDigits_iff.trans ?_), exec_err_ne fun h => ?_⟩
  · rw [and_iff_right (two_le_op_of_codeCommand i hi), and_iff_right hhash]
  · exact absurd (checkArgs_eq_errDigits_iff.mp h).1 (by decide)

/-- Settles O27: the line of STEP comes after those of a legal configuration, and asks for OP at least 3. -/
theorem stepErrorIffZero : Obligations.StepErrorIffZero := by
  have hop : ∀ i ∈ [Instr.b32dec, .hotp, .hotpT], ¬i.op.toNat ≥ 3 := by decide
  intro s
  refine ⟨fun hs i hi => exec_err_iff (checkArgs_eq_errStep_iff.trans ?_), fun i hi => exec_err_ne fun h => ?_⟩
  · rw [and_iff_right (three_le_op_of_timeCommand i hi), and_iff_right hs]
  · exact hop i hi (checkArgs_eq_errStep_iff.mp h).1

/-- A command that decodes, with no cause of higher priority, ends in ERR_LEN exactly for a text beyond its buffer. -/
theorem exec_err_textLen {i : Instr} (hi : i ∈ decodeCommands) {s : State} (hs : i.op.toNat ≥ 2 → LegalCode s)
    (hstep : i.op.toNat ≥ 3 → s.stepSecs ≠ 0) : ∃ t, exec i s = .next t ∧ (t.err = 5 ↔ s.textLen.toNat > 256) := by
  have hfields : ∀ i ∈ decodeCommands, (i.op.toNat = 1 ∨ i.ksrc = true) ∧ ¬(i.op.toNat ≥ 2 ∧ i.ksrc = false) := by
    decide
  obtain ⟨hreads, hno⟩ := hfields i hi
  refine exec_err_iff (checkArgs_eq_errLen_iff.trans ?_)
  rw [and_iff_right hs, and_iff_right hstep, and_iff_right hreads, ← and_assoc, or_iff_left fun h => hno h.1]

/-- A command that takes the key bytes, with no cause of higher priority, ends in ERR_LEN exactly for a key beyond its
buffer. -/
theorem exec_err_keyLen {i : Instr} (hi : i ∈ [Instr.hotp, .totp, .verify]) {s : State} (hs : LegalCode s)
    (hstep : i.op.toNat ≥ 3 → s.stepSecs ≠ 0) : ∃ t, exec i s = .next t ∧ (t.err = 5 ↔ s.keyLen.toNat > 160) := by
  have hfields : ∀ i ∈ [Instr.hotp, .totp, .verify],
      ¬(i.op.toNat = 1 ∨ i.ksrc = true) ∧ i.op.toNat ≥ 2 ∧ i.ksrc = false := by decide
  obtain ⟨hno, hop, hreads⟩ := hfields i hi
  refine exec_err_iff (checkArgs_eq_errLen_iff.trans ?_)
  rw [and_iff_right fun _ => hs, and_iff_right hstep, or_iff_right fun h => hno h.1, and_iff_right hop,
    and_iff_right hreads]

/-- Settles O28: of the two lengths, a command's check reads that of the buffer it takes its secret from. -/
theorem lengthErrorIffBeyondBuffer : Obligations.LengthErrorIffBeyondBuffer := by
  have hdecode : ∀ i ∈ [Instr.totpT, .verifyT], i ∈ decodeCommands := by decide
  have hkey : ∀ i ∈ [Instr.totp, .verify], i ∈ [Instr.hotp, .totp, .verify] := by decide
  intro s
  exact ⟨exec_err_textLen (by decide) (fun h => absurd h (by decide)) fun h => absurd h (by decide),
    fun hs => exec_err_textLen (by decide) (fun _ => hs) fun h => absurd h (by decide),
    fun hs => exec_err_keyLen (by decide) hs fun h => absurd h (by decide),
    fun hs hstep i hi => exec_err_textLen (hdecode i hi) (fun _ => hs) fun _ => hstep,
    fun hs hstep i hi => exec_err_keyLen (hkey i hi) hs fun _ => hstep⟩

/-! ## The command word (R202) and the whole of `Check` (R207) -/

theorem checkArgs_ne_errCmd (op : Nat) (k : Bool) (s : State) : checkArgs op k s ≠ errCmd := by
  unfold checkArgs
  split_ifs <;> decide

/-- The three lines of `Check` that judge the command word, and no other, give ERR_CMD. -/
theorem check_eq_errCmd_iff (s : State) :
    check s = errCmd ↔ (cmdRsv1 s.cmd ≠ 0 ∨ cmdRsv0 s.cmd ≠ 0) ∨ ((cmdOp s.cmd).toNat = 0 ∨ (cmdOp s.cmd).toNat ≥ 5) ∨
      (cmdOp s.cmd).toNat = 1 ∧ cmdKsrc s.cmd = true := by
  unfold check
  dsimp only
  split_ifs with hRsv hOp hKsrc
  · exact iff_of_true rfl (.inl hRsv)
  · exact iff_of_true rfl (.inr (.inl hOp))
  · exact iff_of_true rfl (.inr (.inr hKsrc))
  · exact iff_of_false (checkArgs_ne_errCmd _ _ s) (not_or.mpr ⟨hRsv, not_or.mpr ⟨hOp, hKsrc⟩⟩)

/-- Settles O4: the command word's lines of `Check`, by arithmetic on CMD. -/
theorem illegalWordsEndInErrCmd : Obligations.IllegalWordsEndInErrCmd := by
  intro s hb
  obtain ⟨t, ht, he⟩ := engineTurn_err hb
  obtain ⟨hop, -, hk, -⟩ := cmd_fields s.cmd
  have hmem : s.cmd.toNat % 8 ∈ [0, 5, 6, 7] ↔ s.cmd.toNat % 8 = 0 ∨ s.cmd.toNat % 8 ≥ 5 := by
    simp only [List.mem_cons, List.not_mem_nil, or_false]
    omega
  refine ⟨t, ht, he ▸ (check_eq_errCmd_iff s).trans ?_⟩
  rw [reserved_iff, hop, hk, hmem, decide_eq_true_iff, or_assoc]

/-- Settles O17: `Check` line by line, with the fields of CMD and the registers as numbers. -/
theorem checkDecidesTheErrorCode : Obligations.CheckDecidesTheErrorCode := by
  intro s hb
  obtain ⟨t, ht, he⟩ := engineTurn_err hb
  obtain ⟨hop, hrsv0, hk, hrsv1⟩ := cmd_fields s.cmd
  have hbyteKey : decide (s.cmd.toNat / 256 % 2 = 1) = false ↔ s.cmd.toNat / 256 % 2 = 0 := by
    rw [decide_eq_false_iff_not]
    omega
  refine ⟨t, ht, ?_⟩
  rw [he]
  simp only [check, checkArgs, bitVec_ne_zero_iff, hop, hrsv0, hk, hrsv1, decide_eq_true_iff, hbyteKey,
    BitVec.toNat_eq (y := 0), apply_ite BitVec.toNat]
  rfl

/-! ## The error outcome (R208) and the next state (R200, R211) -/

/-- Settles O29: the completion with the record `ZERO with err = e`, which writes no key. -/
theorem errorOutcomeWritesZeros : Obligations.ErrorOutcomeWritesZeros := by
  intro s hb hc
  obtain ⟨ht, hfits⟩ := engineTurn_eq_complete_specExec hb
  rw [specExec_of_check_ne_zero hc] at ht hfits
  have hkept := complete_keyKept hfits rfl s
  exact ⟨_, ht, complete_resultsZero none (check s) s, complete_finished _ s, hkept,
    complete_registersKept _ s, hkept.1, complete_bytesKept_of_none hfits rfl s⟩

/-- Settles O46: nothing stops the core, whatever item the agenda has first. -/
theorem everyStepHasANextState : Obligations.EveryStepHasANextState := exists_step

end Sys2Proof.Machine
end

section
/-! Reset and hazards (70_reset_and_hazards.md): the reset state from any state and the command it aborts (R230, R231),
the writes a busy core drops (R240), the arguments every command keeps (R244), and a completion that comes, the same
for every placement among the host's accesses (R250). -/

namespace Sys2Proof.Machine

/-! ## Reset (R230, R231) -/

theorem step_reset {s : State} {rest : List Event} (h : s.agenda = .reset :: rest) :
    step s = .next (resetCore { s with agenda := rest }) := by simp only [step, h]

theorem resetCore_bufAt (s : State) (b : Buf) (i : Nat) : (resetCore s).bufAt b i = 0 := rfl

theorem resetCore_resultsZero (s : State) : ResultsZero (resetCore s) := ⟨rfl, rfl, rfl, rfl, rfl⟩

/-- Settles O12, entry by entry of the table of R49. -/
theorem resetRestoresTheTable : Obligations.ResetRestoresTheTable := fun _ _ h =>
  ⟨_, step_reset h, resetCore_cmd _, resetCore_busy _, resetCore_done _, resetCore_matched _, resetCore_err _,
    resetCore_hash _, resetCore_digits _, resetCore_stepSecs _, resetCore_window _, resetCore_counter _,
    resetCore_time _, resetCore_textLen _, resetCore_keyLen _, resetCore_candLen _, resetCore_ctr _,
    resetCore_trunc _, resetCore_code _, fun b i _ => resetCore_bufAt _ b i⟩

/-- Settles O14: the reset core is idle, so the completion is no longer enabled. -/
theorem resetAbortsTheCommandInFlight : Obligations.ResetAbortsTheCommandInFlight := fun _ _ _ h =>
  ⟨_, step_reset h, resetCore_busy _, resetCore_done _, resetCore_resultsZero _,
    engineTurn_of_idle (resetCore_busy _)⟩

/-! ## Host accesses to a busy core (R240, R241) -/

theorem step_write_of_busy {s : State} {a : Index} {v : Word} {rest : List Event} (hb : s.busy = true)
    (h : s.agenda = .write a v :: rest) : step s = .next { s with agenda := rest } :=
  (step_write h).trans (congrArg _ (hostWrite_of_busy (s := { s with agenda := rest }) hb a v))

/-- Settles O9: a write to a busy core is dropped, whatever its index. -/
theorem busyDropsEveryWrite : Obligations.BusyDropsEveryWrite := fun _ _ _ _ hb h => step_write_of_busy hb h

/-- All that an access to a busy core moves is the agenda and the word the host has. -/
theorem step_access_of_busy {s : State} {e : Event} {rest : List Event} (hb : s.busy = true)
    (he : e.isAccess = true) (h : s.agenda = e :: rest) :
    ∃ r, step s = .next { s with agenda := rest, readData := r } := by
  cases e with
  | read a => exact ⟨_, step_read h⟩
  | write a v => exact ⟨s.readData, step_write_of_busy hb h⟩
  | reset => cases he
  | engine => cases he

/-- Any number of accesses to a busy core, from whatever word the host has. -/
theorem run_accesses_of_busy {s : State} (hb : s.busy = true) {pre : List Event}
    (hpre : ∀ e ∈ pre, e.isAccess = true) (rest : List Event) :
    ∃ r, Host.Core.run Sys2Proof.core pre.length { s with agenda := pre ++ rest } =
      .next { s with agenda := rest, readData := r } := by
  induction pre generalizing s with
  | nil => exact ⟨s.readData, rfl⟩
  | cons e pre ih =>
    obtain ⟨he, hpre⟩ := List.forall_mem_cons.mp hpre
    obtain ⟨r, hstep⟩ := step_access_of_busy (s := { s with agenda := e :: (pre ++ rest) }) hb he rfl
    obtain ⟨r', hrun⟩ := ih (s := { s with readData := r }) hb hpre
    exact ⟨r', (run_next hstep pre.length).trans hrun⟩

/-! ## Completion (R244, R250) -/

/-- Settles O31: a turn of the engine changes nothing, or is a completion, which keeps every argument but KEYLEN and
stores to no buffer but KEY, CODE_STR and DIGEST. -/
theorem argumentsPersist : Obligations.ArgumentsPersist := by
  intro s
  obtain ht | ⟨o, ho, ht⟩ := engineTurn_safe s
  · exact ⟨s, ht, rfl, rfl, rfl, rfl, rfl, rfl, rfl, rfl, rfl, rfl⟩
  · have hr := complete_registersKept o s
    have hm := complete_bytesKept ho.fits s
    exact ⟨_, ht, hr.hash, hr.digits, hr.stepSecs, hr.window, hr.counter, hr.time, hr.textLen, hr.candLen,
      hm.buf (by decide), hm.buf (by decide)⟩

/-- Settles O39: the accesses leave the busy core as it was but for the word read, and a turn does not look at
that word. -/
theorem everyPlacementGivesTheSameOutcome : Obligations.EveryPlacementGivesTheSameOutcome := by
  intro s pre rest hb hpre
  obtain ⟨r, haccesses⟩ := run_accesses_of_busy hb hpre (.engine :: rest)
  have hturn : step { s with agenda := .engine :: rest, readData := r } = _ :=
    (step_engine rfl).trans (engineTurn_environment hb rest r)
  exact ⟨_, _, engineTurn_environment hb rest s.readData, (run_add haccesses 1).trans (run_next hturn 0), rfl⟩

/-- An agenda without a reset is accesses of the host up to an engine's turn or up to its end. -/
theorem exists_accesses_append {l : List Event} (h : Event.reset ∉ l) :
    ∃ pre tail, l = pre ++ tail ∧ (∀ e ∈ pre, e.isAccess = true) ∧ (tail = [] ∨ ∃ rest, tail = .engine :: rest) := by
  induction l with
  | nil => exact ⟨[], [], rfl, by simp, .inl rfl⟩
  | cons e l ih =>
    obtain ⟨he, hl⟩ := not_or.mp (mt List.mem_cons.mpr h)
    obtain ⟨pre, tail, rfl, hpre, htail⟩ := ih hl
    cases e with
    | read a => exact ⟨.read a :: pre, tail, rfl, List.forall_mem_cons.mpr ⟨rfl, hpre⟩, htail⟩
    | write a v => exact ⟨.write a v :: pre, tail, rfl, List.forall_mem_cons.mpr ⟨rfl, hpre⟩, htail⟩
    | reset => exact absurd rfl he
    | engine => exact ⟨[], .engine :: (pre ++ tail), rfl, by simp, .inr ⟨_, rfl⟩⟩

/-- The step of a busy core that completes its command. -/
theorem step_turn_completes {s : State} (hb : s.busy = true)
    (h : s.agenda = [] ∨ ∃ rest, s.agenda = .engine :: rest) :
    ∃ t, step s = .next t ∧ t.busy = false ∧ t.done = true := by
  obtain h | ⟨rest, h⟩ := h
  · exact ⟨_, (step_nil h).trans (engineTurn_eq_complete_specExec hb).1, complete_busy _ s, complete_done _ s⟩
  · have ht := (engineTurn_eq_complete_specExec (s := { s with agenda := rest }) hb).1
    exact ⟨_, (step_engine h).trans ht, complete_busy _ _, complete_done _ _⟩

/-- Settles O40: the accesses on the agenda leave the core busy, and the step after them is the engine's turn. -/
theorem completionComesWithinTheAgenda : Obligations.CompletionComesWithinTheAgenda := by
  intro s hb hreset
  obtain ⟨pre, tail, hl, hpre, htail⟩ := exists_accesses_append hreset
  obtain ⟨r, haccesses⟩ := run_accesses_of_busy hb hpre tail
  rw [← hl] at haccesses
  obtain ⟨t, hturn, hdone⟩ := step_turn_completes (s := { s with agenda := tail, readData := r }) hb htail
  have hlen : pre.length + 1 ≤ s.agenda.length + 1 := by simp [hl]
  exact ⟨pre.length + 1, t, hlen, (run_add haccesses 1).trans (run_next hturn 0), hdone⟩

end Sys2Proof.Machine
end
